-- ==== Sys2Proof/Word.lean ====
section
/-! DEFINITION. The machine's word types, one abbreviation per width the spec gives (spec/10_state.md, spec/30_encoding.md R61). -/

namespace Sys2Proof

/-- A memory byte, a general register, a timer counter, the immediate `NN` (R10, R20, R26, R61). -/
abbrev Byte := BitVec 8

/-- The program counter, the index register, a stack slot, an instruction word (R14, R17, R18, R60). -/
abbrev Word := BitVec 16

/-- The 12-bit address field `NNN` (R61). -/
abbrev Addr := BitVec 12

/-- The 4-bit fields: the opcode nibble and the sub-opcode or sprite height `N` (R61). -/
abbrev Nibble := BitVec 4

/-- A general register number, 0 to 15: the decoded fields `X` and `Y` (R10, R62). -/
abbrev Reg := Fin 16

/-- A key index of the input latch, 0 to 15 (R21, R147). -/
abbrev KeyIndex := Fin 16

/-- `VF`, general register 15, the one that doubles as the flag register (R11). -/
abbrev VF : Reg := 15

end Sys2Proof
end

