-- ==== Sys2Proof/Config.lean ====
section
/-! DEFINITION. What is fixed for the machine (spec/00_scope.md R5), the type of the parameter FONT, and the free input
RAND (spec/92_eei_decisions.md D17, D18). -/

namespace Sys2Proof

/-- LOAD_BASE: where a program image is loaded, and the program counter after reset (R5, R14, R191). -/
def Config.loadBase : Nat := 0x200

/-- MAX_IMAGE: the longest program image `Load` accepts, 4096 - 0x200 bytes (R5, R191). -/
def Config.maxImage : Nat := 3584

/-- The type of the parameter FONT: the 80 bytes that reset copies to 0x000 to 0x04F (R5, R30). -/
abbrev Font := Vector Byte 80

/-- The input RAND: the byte that the `n`-th execution of `RND` samples (R112, D18). A free value: it has no
body, so nothing is known of it. DESIGN CHOICE of form, safe: assumption log 4. -/
opaque Config.rand : Nat → Byte

end Sys2Proof
end

