-- ==== Sys2Proof/Machine/Params.lean ====
section
/-! DEFINITION. The defaults that the spec gives its open parameters (spec/00_scope.md R5, second table). The parameters
themselves are arguments of the machine: `State.resetWith` takes them, `State` holds them, and no transition changes them
(assumption log 32). -/

namespace Sys2Proof

/-- The default of the parameter FONT: the 16 glyphs of R30, five bytes each, top row first. The bytes are the spec's
general knowledge (D17, G4). PRESUMED, unsafe: assumption log 2. -/
def defaultFont : Font :=
  ⟨(([0xF0, 0x90, 0x90, 0x90, 0xF0] ++ [0x20, 0x60, 0x20, 0x20, 0x70] ++
    [0xF0, 0x10, 0xF0, 0x80, 0xF0] ++ [0xF0, 0x10, 0xF0, 0x10, 0xF0] ++
    [0x90, 0x90, 0xF0, 0x10, 0x10] ++ [0xF0, 0x80, 0xF0, 0x10, 0xF0] ++
    [0xF0, 0x80, 0xF0, 0x90, 0xF0] ++ [0xF0, 0x10, 0x20, 0x40, 0x40] ++
    [0xF0, 0x90, 0xF0, 0x90, 0xF0] ++ [0xF0, 0x90, 0xF0, 0x10, 0xF0] ++
    [0xF0, 0x90, 0xF0, 0x90, 0x90] ++ [0xE0, 0x90, 0xE0, 0x90, 0xE0] ++
    [0xF0, 0x80, 0x80, 0x80, 0xF0] ++ [0xE0, 0x90, 0x90, 0x90, 0xE0] ++
    [0xF0, 0x80, 0xF0, 0x80, 0xF0] ++ [0xF0, 0x80, 0xF0, 0x80, 0x80] : List Byte)).toArray, rfl⟩

/-- The default of the parameter STRICT_LOW_NIBBLE: `5XYN` and `9XYN` with `N` not 0 are unknown words (R5, R68, D15).
DESIGN CHOICE of the spec, unsafe: assumption log 3. -/
def defaultStrictLowNibble : Bool := true

end Sys2Proof
end

