-- ==== Sys2Proof/Syntax.lean ====
section
/-! DEFINITION. The instructions, one constructor per row of spec/opcode_table.json (spec/30_encoding.md R64),
and the events of the block's interface (spec/60_exceptions.md R165). Operands have exactly the width of their
field, so no operand can be out of range. -/

namespace Sys2Proof

/-- The 34 instructions (R64, R66). `x`, `y` are register numbers, `nn` the 8-bit immediate, `nnn` the 12-bit
address, `n` the sprite height (R61, R62). -/
inductive Instr where
  /-- `00E0` CLS -/
  | cls
  /-- `00EE` RET -/
  | ret
  /-- `1NNN` JP NNN -/
  | jp (nnn : Addr)
  /-- `2NNN` CALL NNN -/
  | call (nnn : Addr)
  /-- `3XNN` SE Vx, NN -/
  | seImm (x : Reg) (nn : Byte)
  /-- `4XNN` SNE Vx, NN -/
  | sneImm (x : Reg) (nn : Byte)
  /-- `5XY0` SE Vx, Vy -/
  | seReg (x y : Reg)
  /-- `6XNN` LD Vx, NN -/
  | ldImm (x : Reg) (nn : Byte)
  /-- `7XNN` ADD Vx, NN -/
  | addImm (x : Reg) (nn : Byte)
  /-- `8XY0` LD Vx, Vy -/
  | ldReg (x y : Reg)
  /-- `8XY1` OR Vx, Vy -/
  | orReg (x y : Reg)
  /-- `8XY2` AND Vx, Vy -/
  | andReg (x y : Reg)
  /-- `8XY3` XOR Vx, Vy -/
  | xorReg (x y : Reg)
  /-- `8XY4` ADD Vx, Vy -/
  | addReg (x y : Reg)
  /-- `8XY5` SUB Vx, Vy -/
  | subReg (x y : Reg)
  /-- `8XY6` SHR Vx; the field `y` is kept, and ignored by the meaning (R108) -/
  | shr (x y : Reg)
  /-- `8XY7` SUBN Vx, Vy -/
  | subnReg (x y : Reg)
  /-- `8XYE` SHL Vx; the field `y` is kept, and ignored by the meaning (R110) -/
  | shl (x y : Reg)
  /-- `9XY0` SNE Vx, Vy -/
  | sneReg (x y : Reg)
  /-- `ANNN` LD I, NNN -/
  | ldI (nnn : Addr)
  /-- `BNNN` JP V0, NNN -/
  | jpV0 (nnn : Addr)
  /-- `CXNN` RND Vx, NN -/
  | rnd (x : Reg) (nn : Byte)
  /-- `DXYN` DRW Vx, Vy, N -/
  | drw (x y : Reg) (n : Nibble)
  /-- `EX9E` SKP Vx -/
  | skp (x : Reg)
  /-- `EXA1` SKNP Vx -/
  | sknp (x : Reg)
  /-- `FX07` LD Vx, DT -/
  | ldVxDT (x : Reg)
  /-- `FX0A` LD Vx, K -/
  | ldVxK (x : Reg)
  /-- `FX15` LD DT, Vx -/
  | ldDTVx (x : Reg)
  /-- `FX18` LD ST, Vx -/
  | ldSTVx (x : Reg)
  /-- `FX1E` ADD I, Vx -/
  | addI (x : Reg)
  /-- `FX29` LD F, Vx -/
  | ldF (x : Reg)
  /-- `FX33` LD B, Vx -/
  | ldB (x : Reg)
  /-- `FX55` LD [I], Vx -/
  | storeRegs (x : Reg)
  /-- `FX65` LD Vx, [I] -/
  | loadRegs (x : Reg)
deriving DecidableEq, Repr

/-- The events of the block's interface (R165), each one indivisible transition of one agent (R48). -/
inductive Event where
  /-- `Step`: the CPU agent's transition (R80) -/
  | step
  /-- `Tick`: the timer agent's transition (R143) -/
  | tick
  /-- `KeyEvent(k, pressed)`: the host's key edge (R147) -/
  | keyEvent (k : KeyIndex) (pressed : Bool)
  /-- `PresentAck`: the host has shown the display buffer (R134) -/
  | presentAck
  /-- `Load(bytes)`: the host copies a program image to 0x200 (R191) -/
  | load (bytes : List Byte)
  /-- `Reset` (R190) -/
  | reset
  /-- The host's quit: power-off between two transitions (R179, R202 (c)) -/
  | quit
deriving DecidableEq, Repr

end Sys2Proof
end

