-- ==== Sys2Proof/WellFormed.lean ====
section
/-! DEFINITION. What makes a term of the syntax well formed: each operand of an instruction fits the field that
encodes it (spec/30_encoding.md R61 to R63), a program image fits memory (spec/70_reset_and_hazards.md R191),
and a sequence of events keeps the boot order (R192). -/

namespace Sys2Proof

/-- An instruction's operands, each with its value and the width in bits of the field that holds it (R61, R63). -/
def Instr.operands : Instr → List (Nat × Nat)
  | .cls | .ret => []
  | .jp nnn | .call nnn | .ldI nnn | .jpV0 nnn => [(nnn.toNat, 12)]
  | .seImm x nn | .sneImm x nn | .ldImm x nn | .addImm x nn | .rnd x nn => [(x.val, 4), (nn.toNat, 8)]
  | .seReg x y | .sneReg x y | .ldReg x y | .orReg x y | .andReg x y | .xorReg x y
  | .addReg x y | .subReg x y | .shr x y | .subnReg x y | .shl x y => [(x.val, 4), (y.val, 4)]
  | .drw x y n => [(x.val, 4), (y.val, 4), (n.toNat, 4)]
  | .skp x | .sknp x | .ldVxDT x | .ldVxK x | .ldDTVx x | .ldSTVx x | .addI x | .ldF x | .ldB x
  | .storeRegs x | .loadRegs x => [(x.val, 4)]

/-- Every value fits the field of the given width. -/
def operandsFit (ops : List (Nat × Nat)) : Bool := ops.all fun (v, width) => decide (v < 2 ^ width)

/-- An instruction is well formed when its operands fit their fields. The types of `Instr` make this hold of
every term (`Laws.WellFormed.instr_wf`). -/
def Instr.wf (i : Instr) : Bool := operandsFit i.operands

/-- A program image is well formed when it fits between 0x200 and the end of memory (R191, R170). -/
def imageFits (bytes : List Byte) : Bool := decide (bytes.length ≤ Config.maxImage)

/-- An event is well formed when the image it loads, if any, fits. -/
def Event.wf : Event → Bool
  | .load bytes => imageFits bytes
  | .step | .tick | .keyEvent _ _ | .presentAck | .reset | .quit => true

/-- The boot order of R192: a `Load` comes after a reset, before the first `Step`, and once. `open?` says whether
a `Load` may still come. -/
def bootOrder : (open? : Bool) → List Event → Bool
  | _, [] => true
  | true, .load _ :: es => bootOrder false es
  | false, .load _ :: _ => false
  | _, .reset :: es => bootOrder true es
  | _, .step :: es => bootOrder false es
  | o, .tick :: es | o, .keyEvent _ _ :: es | o, .presentAck :: es | o, .quit :: es => bootOrder o es

end Sys2Proof
end

