-- ==== Sys2Proof/Decode.lean ====
section
/-! DEFINITION. The decoder, total on any bytes and rejecting by name, and the encoder, both from the opcode map
of spec/30_encoding.md (R60 to R69), with the map itself as rows of match and mask. -/

namespace Sys2Proof

/-! Fields (R61) -/

/-- The primary opcode, bits 15:12. -/
def fieldOp (w : Word) : Nibble := w.extractLsb' 12 4
/-- The register number X, bits 11:8. -/
def fieldX (w : Word) : Reg := ⟨(w.extractLsb' 8 4).toNat, (w.extractLsb' 8 4).isLt⟩
/-- The register number Y, bits 7:4. -/
def fieldY (w : Word) : Reg := ⟨(w.extractLsb' 4 4).toNat, (w.extractLsb' 4 4).isLt⟩
/-- The sub-opcode or sprite height N, bits 3:0. -/
def fieldN (w : Word) : Nibble := w.extractLsb' 0 4
/-- The 8-bit immediate or sub-opcode NN, bits 7:0. -/
def fieldNN (w : Word) : Byte := w.extractLsb' 0 8
/-- The 12-bit address NNN, bits 11:0. -/
def fieldNNN (w : Word) : Addr := w.extractLsb' 0 12

/-! Decoding -/

/-- Group 8: the sub-opcode N selects the operation; all four bits are compared (R64, R68). -/
def decodeGroup8 (x y : Reg) (n : Nibble) : Option Instr :=
  match n with
  | 0x0#4 => some (.ldReg x y)
  | 0x1#4 => some (.orReg x y)
  | 0x2#4 => some (.andReg x y)
  | 0x3#4 => some (.xorReg x y)
  | 0x4#4 => some (.addReg x y)
  | 0x5#4 => some (.subReg x y)
  | 0x6#4 => some (.shr x y)
  | 0x7#4 => some (.subnReg x y)
  | 0xE#4 => some (.shl x y)
  | _ => none

/-- Group E: the sub-opcode NN selects the operation (R64, R68). -/
def decodeGroupE (x : Reg) (nn : Byte) : Option Instr :=
  match nn with
  | 0x9E#8 => some (.skp x)
  | 0xA1#8 => some (.sknp x)
  | _ => none

/-- Group F: the sub-opcode NN selects the operation (R64, R68). -/
def decodeGroupF (x : Reg) (nn : Byte) : Option Instr :=
  match nn with
  | 0x07#8 => some (.ldVxDT x)
  | 0x0A#8 => some (.ldVxK x)
  | 0x15#8 => some (.ldDTVx x)
  | 0x18#8 => some (.ldSTVx x)
  | 0x1E#8 => some (.addI x)
  | 0x29#8 => some (.ldF x)
  | 0x33#8 => some (.ldB x)
  | 0x55#8 => some (.storeRegs x)
  | 0x65#8 => some (.loadRegs x)
  | _ => none

/-- The instruction a 16-bit word stands for, `none` for an unknown word (R64, R65, R67). `strict` is the
parameter STRICT_LOW_NIBBLE: with it false, `5XYN` and `9XYN` are `5XY0` and `9XY0` for every N (R68). -/
def decodeWordWith (strict : Bool) (w : Word) : Option Instr :=
  match fieldOp w with
  | 0x0#4 => if w = 0x00E0#16 then some .cls else if w = 0x00EE#16 then some .ret else none
  | 0x1#4 => some (.jp (fieldNNN w))
  | 0x2#4 => some (.call (fieldNNN w))
  | 0x3#4 => some (.seImm (fieldX w) (fieldNN w))
  | 0x4#4 => some (.sneImm (fieldX w) (fieldNN w))
  | 0x5#4 => if strict = true ∧ fieldN w ≠ 0 then none else some (.seReg (fieldX w) (fieldY w))
  | 0x6#4 => some (.ldImm (fieldX w) (fieldNN w))
  | 0x7#4 => some (.addImm (fieldX w) (fieldNN w))
  | 0x8#4 => decodeGroup8 (fieldX w) (fieldY w) (fieldN w)
  | 0x9#4 => if strict = true ∧ fieldN w ≠ 0 then none else some (.sneReg (fieldX w) (fieldY w))
  | 0xA#4 => some (.ldI (fieldNNN w))
  | 0xB#4 => some (.jpV0 (fieldNNN w))
  | 0xC#4 => some (.rnd (fieldX w) (fieldNN w))
  | 0xD#4 => some (.drw (fieldX w) (fieldY w) (fieldN w))
  | 0xE#4 => decodeGroupE (fieldX w) (fieldNN w)
  | 0xF#4 => decodeGroupF (fieldX w) (fieldNN w)
  | _ => none

/-- Why bytes are no instruction. -/
inductive DecodeError where
  /-- Fewer than the two bytes of an instruction are left (R60). -/
  | truncated
  /-- The word matches no row of the opcode map (R65, R67). -/
  | unknown (w : Word)
deriving DecidableEq, Repr

/-- The word that two consecutive bytes make, high byte first (R42, R60). -/
def wordOfBytes (hi lo : Byte) : Word := hi ++ lo

/-- The decoder on bytes: the first instruction and the bytes that follow it, or the reason there is none. `strict` is
the parameter STRICT_LOW_NIBBLE (R68). -/
def decode (strict : Bool) : List Byte → Except DecodeError (Instr × List Byte)
  | hi :: lo :: rest =>
    match decodeWordWith strict (wordOfBytes hi lo) with
    | some i => .ok (i, rest)
    | none => .error (.unknown (wordOfBytes hi lo))
  | _ => .error .truncated

/-- The two bytes of a word as they lie in memory, high byte first (R42, R60). -/
def bytesOfWord (w : Word) : List Byte := [w.extractLsb' 8 8, w.extractLsb' 0 8]

/-- The instruction the decoder reads from an instruction whose `nbits` bits are `w`, bit 0 the least significant
bit of the one 16-bit word; the bytes are laid out as memory holds them. The parameter STRICT_LOW_NIBBLE is at its default. -/
def decodeTableWord (nbits w : Nat) : Option Instr :=
  match decode defaultStrictLowNibble (bytesOfWord (BitVec.ofNat 16 (w % 2 ^ nbits))) with
  | .ok (i, _) => some i
  | .error _ => none

/-! Encoding -/

/-- A register number as the 4-bit field that holds it. -/
def regBits (x : Reg) : Nibble := BitVec.ofNat 4 x.val

/-- Format ADDR: opcode nibble, NNN (R63). -/
def fmtADDR (op : Nibble) (nnn : Addr) : Word := op ++ nnn
/-- Formats XNN and XS: opcode nibble, X, NN or the 8-bit sub-opcode (R63). -/
def fmtXNN (op : Nibble) (x : Reg) (nn : Byte) : Word := op ++ regBits x ++ nn
/-- Formats XY and XYN: opcode nibble, X, Y, sub-opcode or N (R63). -/
def fmtXYN (op : Nibble) (x y : Reg) (n : Nibble) : Word := op ++ regBits x ++ regBits y ++ n

/-- The word of an instruction (R63, R64). -/
def encode : Instr → Word
  | .cls => 0x00E0
  | .ret => 0x00EE
  | .jp nnn => fmtADDR 0x1 nnn
  | .call nnn => fmtADDR 0x2 nnn
  | .seImm x nn => fmtXNN 0x3 x nn
  | .sneImm x nn => fmtXNN 0x4 x nn
  | .seReg x y => fmtXYN 0x5 x y 0x0
  | .ldImm x nn => fmtXNN 0x6 x nn
  | .addImm x nn => fmtXNN 0x7 x nn
  | .ldReg x y => fmtXYN 0x8 x y 0x0
  | .orReg x y => fmtXYN 0x8 x y 0x1
  | .andReg x y => fmtXYN 0x8 x y 0x2
  | .xorReg x y => fmtXYN 0x8 x y 0x3
  | .addReg x y => fmtXYN 0x8 x y 0x4
  | .subReg x y => fmtXYN 0x8 x y 0x5
  | .shr x y => fmtXYN 0x8 x y 0x6
  | .subnReg x y => fmtXYN 0x8 x y 0x7
  | .shl x y => fmtXYN 0x8 x y 0xE
  | .sneReg x y => fmtXYN 0x9 x y 0x0
  | .ldI nnn => fmtADDR 0xA nnn
  | .jpV0 nnn => fmtADDR 0xB nnn
  | .rnd x nn => fmtXNN 0xC x nn
  | .drw x y n => fmtXYN 0xD x y n
  | .skp x => fmtXNN 0xE x 0x9E
  | .sknp x => fmtXNN 0xE x 0xA1
  | .ldVxDT x => fmtXNN 0xF x 0x07
  | .ldVxK x => fmtXNN 0xF x 0x0A
  | .ldDTVx x => fmtXNN 0xF x 0x15
  | .ldSTVx x => fmtXNN 0xF x 0x18
  | .addI x => fmtXNN 0xF x 0x1E
  | .ldF x => fmtXNN 0xF x 0x29
  | .ldB x => fmtXNN 0xF x 0x33
  | .storeRegs x => fmtXNN 0xF x 0x55
  | .loadRegs x => fmtXNN 0xF x 0x65

/-! The opcode map as match and mask (R64), kept beside the decoder so that the two can be compared -/

/-- One row of the opcode map: a word `w` selects it when `w AND mask = pattern` (R64, R65). -/
structure OpcodeRow where
  pattern : Word
  mask : Word
deriving DecidableEq, Repr

/-- A word selects a row (R65). -/
def OpcodeRow.selects (r : OpcodeRow) (w : Word) : Bool := w &&& r.mask == r.pattern

/-- The row of R64's map that an instruction belongs to. -/
def rowOf : Instr → OpcodeRow
  | .cls => ⟨0x00E0, 0xFFFF⟩
  | .ret => ⟨0x00EE, 0xFFFF⟩
  | .jp _ => ⟨0x1000, 0xF000⟩
  | .call _ => ⟨0x2000, 0xF000⟩
  | .seImm _ _ => ⟨0x3000, 0xF000⟩
  | .sneImm _ _ => ⟨0x4000, 0xF000⟩
  | .seReg _ _ => ⟨0x5000, 0xF00F⟩
  | .ldImm _ _ => ⟨0x6000, 0xF000⟩
  | .addImm _ _ => ⟨0x7000, 0xF000⟩
  | .ldReg _ _ => ⟨0x8000, 0xF00F⟩
  | .orReg _ _ => ⟨0x8001, 0xF00F⟩
  | .andReg _ _ => ⟨0x8002, 0xF00F⟩
  | .xorReg _ _ => ⟨0x8003, 0xF00F⟩
  | .addReg _ _ => ⟨0x8004, 0xF00F⟩
  | .subReg _ _ => ⟨0x8005, 0xF00F⟩
  | .shr _ _ => ⟨0x8006, 0xF00F⟩
  | .subnReg _ _ => ⟨0x8007, 0xF00F⟩
  | .shl _ _ => ⟨0x800E, 0xF00F⟩
  | .sneReg _ _ => ⟨0x9000, 0xF00F⟩
  | .ldI _ => ⟨0xA000, 0xF000⟩
  | .jpV0 _ => ⟨0xB000, 0xF000⟩
  | .rnd _ _ => ⟨0xC000, 0xF000⟩
  | .drw _ _ _ => ⟨0xD000, 0xF000⟩
  | .skp _ => ⟨0xE09E, 0xF0FF⟩
  | .sknp _ => ⟨0xE0A1, 0xF0FF⟩
  | .ldVxDT _ => ⟨0xF007, 0xF0FF⟩
  | .ldVxK _ => ⟨0xF00A, 0xF0FF⟩
  | .ldDTVx _ => ⟨0xF015, 0xF0FF⟩
  | .ldSTVx _ => ⟨0xF018, 0xF0FF⟩
  | .addI _ => ⟨0xF01E, 0xF0FF⟩
  | .ldF _ => ⟨0xF029, 0xF0FF⟩
  | .ldB _ => ⟨0xF033, 0xF0FF⟩
  | .storeRegs _ => ⟨0xF055, 0xF0FF⟩
  | .loadRegs _ => ⟨0xF065, 0xF0FF⟩

/-- One instruction of each row of the opcode map, operands 0, in the order of R64. -/
def opcodeForms : List Instr :=
  [.cls, .ret, .jp 0, .call 0, .seImm 0 0, .sneImm 0 0, .seReg 0 0, .ldImm 0 0, .addImm 0 0] ++
  [.ldReg 0 0, .orReg 0 0, .andReg 0 0, .xorReg 0 0, .addReg 0 0, .subReg 0 0, .shr 0 0, .subnReg 0 0, .shl 0 0] ++
  [.sneReg 0 0, .ldI 0, .jpV0 0, .rnd 0 0, .drw 0 0 0, .skp 0, .sknp 0] ++
  [.ldVxDT 0, .ldVxK 0, .ldDTVx 0, .ldSTVx 0, .addI 0, .ldF 0, .ldB 0, .storeRegs 0, .loadRegs 0]

/-- The 34 rows of the opcode map, in the order of R64. -/
def opcodeRows : List OpcodeRow := opcodeForms.map rowOf

end Sys2Proof
end

