-- ==== Sys2Proof/Machine/State.lean ====
section
/-! DEFINITION. The state of the machine as plain data, every element of spec/10_state.md, with its reset value
(R29), and the reasons a step of the model can stop. -/

namespace Sys2Proof.Machine

/-- The run state (R21, R150, R161). It is no privilege level (R172). -/
inductive Mode where
  /-- instructions execute -/
  | normal
  /-- `LD Vx, K` waits for a key-down event (R150) -/
  | waitingForKey
  /-- a fault has stopped the CPU until reset (R161) -/
  | faulted
deriving DecidableEq, Repr

/-- The causes a fault records (R162). -/
inductive FaultCause where
  /-- code 0: no fault recorded -/
  | noFault
  /-- code 1: `AddressFault` at fetch -/
  | fetchAddress
  /-- code 2: `AddressFault` of a data access -/
  | dataAddress
  /-- code 3: `StackFault`, overflow -/
  | stackOverflow
  /-- code 4: `StackFault`, underflow -/
  | stackUnderflow
  /-- code 5: `KeyIndexFault` -/
  | keyIndex
deriving DecidableEq, Repr

/-- The output pulses (R28, R165): events that change no architectural state. -/
inductive Output where
  /-- `Diag(A, word)`: an unknown word was executed (R90) -/
  | diag (addr word : Word)
  /-- `Beep`: a tick took the sound counter from 1 to 0 (R145) -/
  | beep
deriving DecidableEq, Repr

/-- Memory as the cells that differ from the reset contents, by rising address (`Memory.wf`): assumption log 31. -/
abbrev Memory := List Host.Cell

/-- The display buffer `disp[y][x]`, 32 rows of 64 pixels, `true` = on (R22, R130). -/
abbrev Display := Vector (Vector Bool 64) 32

/-- The machine state, in the order of the table of R29; then four fields of the model's own; then
the two parameters of R5, which no transition changes. -/
structure State where
  /-- `V[0]` to `V[15]`, the general registers; `V[15]` is `VF` (R10, R11) -/
  V : Vector Byte 16
  /-- the index register (R17) -/
  I : Word
  /-- the program counter (R14) -/
  pc : Word
  /-- the stack pointer, 0 to 16: how many return addresses the stack holds (R18, R19) -/
  SP : Fin 17
  /-- the call stack (R18) -/
  stack : Vector Word 16
  /-- the delay counter (R20) -/
  DT : Byte
  /-- the sound counter (R20) -/
  ST : Byte
  /-- the display buffer (R22) -/
  disp : Display
  /-- whether the display changed since it was last shown (R23) -/
  dirty : Bool
  /-- the input latch: key `k` is held down (R21) -/
  key : Vector Bool 16
  /-- the run state (R21, R150) -/
  mode : Mode
  /-- the register that a wait for a key will write (R21) -/
  waitReg : Reg
  /-- the cause of the recorded fault (R25, R162) -/
  faultCause : FaultCause
  /-- the address of the faulting instruction (R25) -/
  faultAddr : Word
  /-- the word of the faulting instruction, 0 for a fetch fault (R25) -/
  faultOp : Word
  /-- the 4096 bytes of memory (R26) -/
  mem : Memory
  /-- the model's own: the events still to come, first first; empty means the CPU steps (R200): assumption log 14 -/
  schedule : List Event
  /-- the model's own: the output pulses so far, newest first (R28, R169): assumption log 15 -/
  outputs : List Output
  /-- the model's own: how many bytes `RND` has drawn, the counter of the free value (R112): assumption log 4 -/
  randCount : Nat
  /-- the model's own: a `Load` may still come (R192): assumption log 16 -/
  loadAllowed : Bool
  /-- the parameter FONT, fixed for a machine (R5, R30, D17): assumption logs 2 and 32 -/
  font : Font
  /-- the parameter STRICT_LOW_NIBBLE, fixed for a machine (R5, R68, D15): assumption logs 3 and 32 -/
  strictLowNibble : Bool
deriving DecidableEq, Repr

/-- The machine right after reset, for any value of the two parameters: the table of R29. Memory lists nothing, so every
byte reads as reset leaves it: the font at 0x000 to 0x04F, zero above. -/
def State.resetWith (font : Font) (strictLowNibble : Bool) : State where
  V := Vector.replicate 16 0
  I := 0
  pc := 0x200
  SP := 0
  stack := Vector.replicate 16 0
  DT := 0
  ST := 0
  disp := Vector.replicate 32 (Vector.replicate 64 false)
  dirty := false
  key := Vector.replicate 16 false
  mode := .normal
  waitReg := 0
  faultCause := .noFault
  faultAddr := 0
  faultOp := 0
  mem := []
  schedule := []
  outputs := []
  randCount := 0
  loadAllowed := true
  font := font
  strictLowNibble := strictLowNibble

/-- The machine right after reset, the parameters at the defaults the spec gives them (R5, R29). -/
def State.reset : State := State.resetWith defaultFont defaultStrictLowNibble

/-- Why a step ends the run. The spec's own faults (R161) are not among these: they are next states. -/
inductive Fault where
  /-- Raised by the event `quit` alone: the host has powered the machine off between two transitions (R179, R202 (c)).
  Safe: nothing happens after it. -/
  | poweredOff
deriving DecidableEq, Repr

/-- What the model gives no meaning. -/
inductive Refusal where
  /-- An instruction without a meaning yet, by its mnemonic. Raised by no instruction of this model. Safe. -/
  | notModelled (mnemonic : String)
  /-- Raised by the event `load` alone: a second `Load`, or a `Load` after the first `Step`; the spec gives it no
  meaning (R192, D25). Safe. -/
  | loadOutOfOrder
  /-- Raised by the event `load` alone: the image is longer than 3584 bytes, `CapacityExceeded`; the machine is not
  started (R170, R191). Safe. -/
  | imageTooLong
deriving DecidableEq, Repr

/-- The outcome of a step or of a meaning. -/
abbrev Result := Host.Outcome State Fault Refusal

end Sys2Proof.Machine
end

