-- ==== Sys2Proof/Machine/Ops.lean ====
section
/-! DEFINITION. The named operations over memory, registers, stack, display and fault record, each defined once and used by
every meaning. -/

namespace Sys2Proof.Machine

/-! Memory (spec/20_memory.md) -/

/-- What an address reads as when nothing has been written there since reset: the font at 0x000 to 0x04F, zero
above (R29, R30). The parameter FONT is an argument of every memory operation. -/
def Memory.resetByte (font : Font) (a : Nat) : Byte := if h : a < 80 then font[a] else 0

/-- The canonical form from address `lo` up: addresses strictly rise and lie in memory, and no cell holds what its
address reads as anyway. -/
def Memory.wfFrom (font : Font) (lo : Nat) : Memory → Bool
  | [] => true
  | (a, b) :: rest => decide (lo ≤ a) && decide (a ≤ 0xFFF) && b != resetByte font a && wfFrom font (a + 1) rest

/-- The canonical form of a memory: equal memories are equal lists. -/
def Memory.wf (font : Font) (m : Memory) : Bool := wfFrom font 0 m

/-- The byte at an address: the latest written there, else what reset left (R45). -/
def Memory.read (font : Font) : Memory → Nat → Byte
  | [], a => resetByte font a
  | (a', b) :: rest, a => if a = a' then b else read font rest a

/-- Put a cell in front, unless it holds what its address reads as anyway. -/
def Memory.consCell (font : Font) (a : Nat) (b : Byte) (m : Memory) : Memory :=
  if b = resetByte font a then m else (a, b) :: m

/-- Store one byte (R45), keeping the canonical form. -/
def Memory.write (font : Font) : Memory → Nat → Byte → Memory
  | [], a, b => consCell font a b []
  | (a', b') :: rest, a, b =>
    if a < a' then consCell font a b ((a', b') :: rest)
    else if a = a' then consCell font a b rest
    else (a', b') :: write font rest a b

/-- Store consecutive bytes from an address up, in ascending order (R44). -/
def Memory.writeBytes (font : Font) (m : Memory) (a : Nat) : List Byte → Memory
  | [] => m
  | b :: bs => writeBytes font (write font m a b) (a + 1) bs

/-- The `n` consecutive bytes from an address up, in ascending order (R44). -/
def Memory.readBytes (font : Font) (m : Memory) (a : Nat) : Nat → List Byte
  | 0 => []
  | n + 1 => read font m a :: readBytes font m (a + 1) n

/-- The bounds check of a block access: no access at all, or the last address is at most 0xFFF. The address is an
unbounded sum; it does not wrap (R53, D4). -/
def Memory.inBounds (a n : Nat) : Bool := decide (n = 0) || decide (a + n - 1 ≤ 0xFFF)

/-- Read a block, checked as a whole first (R53, R54); `none` is `AddressFault`. -/
def Memory.readBlock (font : Font) (m : Memory) (a n : Nat) : Option (List Byte) :=
  if inBounds a n then some (readBytes font m a n) else none

/-- Store a block, checked as a whole first, so that a fault leaves no part of it (R53, R163); `none` is
`AddressFault`. -/
def Memory.writeBlock (font : Font) (m : Memory) (a : Nat) (bs : List Byte) : Option Memory :=
  if inBounds a bs.length then some (writeBytes font m a bs) else none

/-- Fetch: the two bytes at `a` and `a + 1`, high byte first, at any alignment; `none` (`AddressFault`) when
`a > 0xFFE` (R16, R42, R43, R80). -/
def Memory.fetch (font : Font) (m : Memory) (a : Nat) : Option Word :=
  if a > 0xFFE then none else some (wordOfBytes (read font m a) (read font m (a + 1)))

/-- The byte at an address of the machine's memory. -/
def State.byte (s : State) (a : Nat) : Byte := Memory.read s.font s.mem a

/-! General registers (R10): one home, one reader, one writer -/

/-- `V[x]`. -/
def State.getV (s : State) (x : Reg) : Byte := s.V[x]

/-- `V[x] <- b`. -/
def State.setV (s : State) (x : Reg) (b : Byte) : State := { s with V := s.V.set x b }

/-- `V[k] <- ` the first byte, `V[k+1] <- ` the second, and so on, ascending (R126). -/
def State.setRegs (s : State) (k : Nat) : List Byte → State
  | [] => s
  | b :: bs => setRegs (s.setV (Fin.ofNat 16 k) b) (k + 1) bs

/-! Program counter (R14, R15) -/

/-- The advance of fetch, and a taken skip: `pc <- (pc + 2) mod 65536` (R15). -/
def State.advance (s : State) : State := { s with pc := s.pc + 2 }

/-- The address `A` of the instruction being executed: during execution `pc` is `A + 2` (R14, R80). -/
def State.instrAddr (s : State) : Word := s.pc - 2

/-- A jump (R81). -/
def State.jump (s : State) (target : Word) : State := { s with pc := target }

/-- A skip: advance once more when the condition holds (R15, R86). -/
def State.skipIf (s : State) (c : Bool) : State := if c then s.advance else s

/-! Call stack (R18, R19) -/

/-- Push: store at `stack[SP]`, then increment `SP`; `none` is the overflow of `SP = 16` (R82). -/
def State.push (s : State) (a : Word) : Option State :=
  if h : s.SP.val < 16 then
    some { s with stack := s.stack.set s.SP.val a, SP := ⟨s.SP.val + 1, by omega⟩ }
  else none

/-- Pop: decrement `SP`, then read `stack[SP]`, which keeps its value; `none` is the underflow of `SP = 0` (R83). -/
def State.pop (s : State) : Option (Word × State) :=
  if h : s.SP.val = 0 then none
  else
    some (s.stack[s.SP.val - 1]'(by omega), { s with SP := ⟨s.SP.val - 1, by omega⟩ })

/-! Display (spec/43_display.md) -/

/-- The pixel at column `x`, row `y` (R22, R130). -/
def Display.pixel (d : Display) (x : Fin 64) (y : Fin 32) : Bool := d[y][x]

/-- XOR one pixel with 1 (R132). -/
def Display.toggle (d : Display) (x : Fin 64) (y : Fin 32) : Display := d.set y (d[y].set x (!d[y][x]))

/-- All pixels off (R131). -/
def Display.clear : Display := Vector.replicate 32 (Vector.replicate 64 false)

/-- What a draw works on: the buffer and the collision so far (R132). -/
structure Canvas where
  disp : Display
  hit : Bool
deriving DecidableEq, Repr

/-- Draw one sprite bit that is 1: the coordinates wrap on both axes, a pixel that was on is a collision, and the
pixel toggles (R132). -/
def Canvas.plot (c : Canvas) (x y : Nat) : Canvas :=
  { disp := c.disp.toggle (Fin.ofNat 64 x) (Fin.ofNat 32 y)
    hit := c.hit || c.disp.pixel (Fin.ofNat 64 x) (Fin.ofNat 32 y) }

/-- Draw a row of sprite bits from column `x` rightwards; bits that are 0 change nothing (R132). -/
def Canvas.drawRow (c : Canvas) (x y : Nat) : List Bool → Canvas
  | [] => c
  | bit :: bits => drawRow (if bit then c.plot x y else c) (x + 1) y bits

/-- The eight bits of a sprite byte, leftmost pixel (bit 7) first (R130). -/
def spriteBits (b : Byte) : List Bool :=
  [b.getLsbD 7, b.getLsbD 6, b.getLsbD 5, b.getLsbD 4, b.getLsbD 3, b.getLsbD 2, b.getLsbD 1, b.getLsbD 0]

/-- Draw sprite rows from row `y` downwards (R132). -/
def Canvas.drawSprite (c : Canvas) (x y : Nat) : List Byte → Canvas
  | [] => c
  | b :: bs => drawSprite (c.drawRow x y (spriteBits b)) x (y + 1) bs

/-! Output pulses and the random input -/

/-- Emit an output event; it changes no architectural state (R8, R28). -/
def State.emit (s : State) (o : Output) : State := { s with outputs := o :: s.outputs }

/-- The level output `tone`, a function of the state (R145). -/
def State.tone (s : State) : Bool := s.ST != 0

/-- The byte that `draw8()` samples from the input RAND (R112). -/
def State.randByte (s : State) : Byte := Config.rand s.randCount

/-- The state after one draw: the next draw is another free byte (R112). -/
def State.drawn (s : State) : State := { s with randCount := s.randCount + 1 }

/-! Taking an exception, and the return from one (spec/60_exceptions.md) -/

/-- The code of a fault cause (R162). -/
def FaultCause.code : FaultCause → Nat
  | .noFault => 0
  | .fetchAddress => 1
  | .dataAddress => 2
  | .stackOverflow => 3
  | .stackUnderflow => 4
  | .keyIndex => 5

/-- `raise`: the fault record is written, the mode becomes `Faulted`, `pc` is the address of the instruction, and
nothing else changes (R161, R163). There is no handler to enter (R167). -/
def State.raise (s : State) (cause : FaultCause) (addr op : Word) : State :=
  { s with faultCause := cause, faultAddr := addr, faultOp := op, mode := .faulted, pc := addr }

/-- A fault of the instruction being executed: `A` is its address and the word is its encoding; the advance of fetch
is discarded with the rest (R161, R163). Every meaning calls this before its first write. -/
def raiseIn (cause : FaultCause) (i : Instr) (s : State) : Result :=
  .next (s.raise cause s.instrAddr (encode i))

/-- `Reset`, the one exit from `Faulted` and the only return there is (R161, R168, R190): every element to its reset
value. The parameters stay, and the model's own record of outputs, draws and coming events goes on: assumption log 22. -/
def State.resetMachine (s : State) : State :=
  { State.resetWith s.font s.strictLowNibble with schedule := s.schedule, outputs := s.outputs, randCount := s.randCount }

/-- A CPU step in `Normal` begins: no `Load` may follow (R192). -/
def State.begun (s : State) : State := { s with loadAllowed := false }

end Sys2Proof.Machine
end

