-- ==== Sys2Proof/Machine/Operands.lean ====
section
/-! DEFINITION. The operand forms: zero-extended immediates (R62), the one data address `I + k` (R124), the digits of
BCD decompose (R123), and the register block (R125). -/

namespace Sys2Proof.Machine

/-- An address field as the 16-bit value written to `pc` or `I` (R62). -/
def zextAddr (nnn : Addr) : Word := nnn.zeroExtend 16

/-- A register value as a 16-bit value (R85, R121, R122). -/
def zextByte (b : Byte) : Word := b.zeroExtend 16

/-- The base of every data access: `I` as an unbounded number (R53, R124). -/
def State.base (s : State) : Nat := s.I.toNat

/-- The digits of a byte: hundreds, tens, ones (R123). -/
def bcdDigits (v : Byte) : List Byte := [v / 100, (v / 10) % 10, v % 10]

/-- `V[0]` to `V[x]`, ascending and inclusive (R125). -/
def State.regBlock (s : State) (x : Reg) : List Byte := s.V.toList.take (x.val + 1)

/-- The glyph address of a digit: `5 * V[x]`, not reduced (R122, D21). -/
def glyphAddr (v : Byte) : Word := 5 * zextByte v

/-- A register value as a key index, if it is one (R148, D5). -/
def keyIndex? (v : Byte) : Option KeyIndex := if h : v.toNat < 16 then some ⟨v.toNat, h⟩ else none

end Sys2Proof.Machine
end

