-- ==== Sys2Proof/Machine/Flags.lean ====
section
/-! DEFINITION. The flag computations: the value each instruction of R12 leaves in `VF`, and the order of the result
write and the flag write (R13, D6). -/

namespace Sys2Proof.Machine

/-- A flag as the byte it leaves in `VF`: 0x00 or 0x01 (R11). -/
def flagByte (f : Bool) : Byte := if f then 1 else 0

/-- The carry of `a + b`: the 9-bit sum exceeds 255 (R106). -/
def carryOut (a b : Byte) : Bool := decide (a.toNat + b.toNat > 255)

/-- No borrow in `a - b`: `a >= b` (R107, R109). -/
def noBorrow (a b : Byte) : Bool := decide (a.toNat ≥ b.toNat)

/-- The bit that a right shift drops: bit 0 before the shift (R108). -/
def shrOut (a : Byte) : Bool := a.getLsbD 0

/-- The bit that a left shift drops: bit 7 before the shift (R110). -/
def shlOut (a : Byte) : Bool := a.getLsbD 7

/-- `V[x] <- r`, then `V[0xF] <- f`: the flag is written last, so with `x = 0xF` the flag is what stays (R13, D6:
assumption log 7). -/
def State.setResultFlag (s : State) (x : Reg) (r : Byte) (f : Bool) : State := (s.setV x r).setV VF (flagByte f)

end Sys2Proof.Machine
end

