-- ==== Sys2Proof/Machine/Alu.lean ====
section
/-! DEFINITION. Immediate, register-to-register and random instructions (spec/41_immediate_and_alu.md). None of them
faults or changes `pc`. Operands are read before any write (R8, D29). -/

namespace Sys2Proof.Machine

/-- `6XNN` LD Vx, NN (R100). -/
def execLdImm (x : Reg) (nn : Byte) (s : State) : Result := .next (s.setV x nn)

/-- `7XNN` ADD Vx, NN (R101): modulo 256, no flag. -/
def execAddImm (x : Reg) (nn : Byte) (s : State) : Result := .next (s.setV x (s.getV x + nn))

/-- `8XY0` LD Vx, Vy (R102). -/
def execLdReg (x y : Reg) (s : State) : Result := .next (s.setV x (s.getV y))

/-- `8XY1` OR Vx, Vy (R103): no flag. -/
def execOrReg (x y : Reg) (s : State) : Result := .next (s.setV x (s.getV x ||| s.getV y))

/-- `8XY2` AND Vx, Vy (R104): no flag. -/
def execAndReg (x y : Reg) (s : State) : Result := .next (s.setV x (s.getV x &&& s.getV y))

/-- `8XY3` XOR Vx, Vy (R105): no flag. -/
def execXorReg (x y : Reg) (s : State) : Result := .next (s.setV x (s.getV x ^^^ s.getV y))

/-- `8XY4` ADD Vx, Vy (R106): `VF` is the carry. -/
def execAddReg (x y : Reg) (s : State) : Result :=
  .next (s.setResultFlag x (s.getV x + s.getV y) (carryOut (s.getV x) (s.getV y)))

/-- `8XY5` SUB Vx, Vy (R107): `VF` is no-borrow of `V[x] - V[y]`. -/
def execSubReg (x y : Reg) (s : State) : Result :=
  .next (s.setResultFlag x (s.getV x - s.getV y) (noBorrow (s.getV x) (s.getV y)))

/-- `8XY6` SHR Vx (R108): `VF` is the old bit 0; the field `y` is ignored. -/
def execShr (x _y : Reg) (s : State) : Result := .next (s.setResultFlag x (s.getV x >>> 1) (shrOut (s.getV x)))

/-- `8XY7` SUBN Vx, Vy (R109): `VF` is no-borrow of `V[y] - V[x]`. -/
def execSubnReg (x y : Reg) (s : State) : Result :=
  .next (s.setResultFlag x (s.getV y - s.getV x) (noBorrow (s.getV y) (s.getV x)))

/-- `8XYE` SHL Vx (R110): `VF` is the old bit 7; the field `y` is ignored. -/
def execShl (x _y : Reg) (s : State) : Result := .next (s.setResultFlag x (s.getV x <<< 1) (shlOut (s.getV x)))

/-- `CXNN` RND Vx, NN (R111): a free byte AND the mask. -/
def execRnd (x : Reg) (nn : Byte) (s : State) : Result := .next (s.drawn.setV x (s.randByte &&& nn))

end Sys2Proof.Machine
end

