-- ==== Sys2Proof/Machine/Control.lean ====
section
/-! DEFINITION. Jumps, call, return and skips (spec/40_control_flow.md). On entry `pc` is `A + 2` (R80). -/

namespace Sys2Proof.Machine

/-- `1NNN` JP NNN (R81). -/
def execJp (nnn : Addr) (s : State) : Result := .next (s.jump (zextAddr nnn))

/-- `2NNN` CALL NNN (R82): push the advanced `pc`, then jump; `StackFault` overflow when `SP = 16`. -/
def execCall (nnn : Addr) (s : State) : Result :=
  match s.push s.pc with
  | some t => .next (t.jump (zextAddr nnn))
  | none => raiseIn .stackOverflow (.call nnn) s

/-- `00EE` RET (R83): pop into `pc`; `StackFault` underflow when `SP = 0`. -/
def execRet (s : State) : Result :=
  match s.pop with
  | some (a, t) => .next (t.jump a)
  | none => raiseIn .stackUnderflow .ret s

/-- `BNNN` JP V0, NNN (R85): the sum is not reduced to 12 bits. -/
def execJpV0 (nnn : Addr) (s : State) : Result := .next (s.jump (zextAddr nnn + zextByte (s.getV 0)))

/-- `3XNN` SE Vx, NN (R86). -/
def execSeImm (x : Reg) (nn : Byte) (s : State) : Result := .next (s.skipIf (s.getV x == nn))

/-- `4XNN` SNE Vx, NN (R87). -/
def execSneImm (x : Reg) (nn : Byte) (s : State) : Result := .next (s.skipIf (s.getV x != nn))

/-- `5XY0` SE Vx, Vy (R88). -/
def execSeReg (x y : Reg) (s : State) : Result := .next (s.skipIf (s.getV x == s.getV y))

/-- `9XY0` SNE Vx, Vy (R89). -/
def execSneReg (x y : Reg) (s : State) : Result := .next (s.skipIf (s.getV x != s.getV y))

end Sys2Proof.Machine
end

