-- ==== Sys2Proof/Machine/IndexMem.lean ====
section
/-! DEFINITION. Index register and memory instructions (spec/42_index_and_memory.md). None of them changes `pc`; the
three that reach memory leave `I` unchanged (R124, D8). -/

namespace Sys2Proof.Machine

/-- `ANNN` LD I, NNN (R120). -/
def execLdI (nnn : Addr) (s : State) : Result := .next { s with I := zextAddr nnn }

/-- `FX1E` ADD I, Vx (R121): modulo 65536, no flag. -/
def execAddI (x : Reg) (s : State) : Result := .next { s with I := s.I + zextByte (s.getV x) }

/-- `FX29` LD F, Vx (R122). -/
def execLdF (x : Reg) (s : State) : Result := .next { s with I := glyphAddr (s.getV x) }

/-- `FX33` LD B, Vx (R123): three digits to `mem[I]` to `mem[I + 2]`; `AddressFault` when `I + 2 > 0xFFF`. -/
def execLdB (x : Reg) (s : State) : Result :=
  match Memory.writeBlock s.font s.mem s.base (bcdDigits (s.getV x)) with
  | some m => .next { s with mem := m }
  | none => raiseIn .dataAddress (.ldB x) s

/-- `FX55` LD [I], Vx (R125): `V[0]` to `V[x]` to `mem[I]` upwards; `AddressFault` when `I + x > 0xFFF`. -/
def execStoreRegs (x : Reg) (s : State) : Result :=
  match Memory.writeBlock s.font s.mem s.base (s.regBlock x) with
  | some m => .next { s with mem := m }
  | none => raiseIn .dataAddress (.storeRegs x) s

/-- `FX65` LD Vx, [I] (R126): `mem[I]` upwards to `V[0]` to `V[x]`; `AddressFault` when `I + x > 0xFFF`. -/
def execLoadRegs (x : Reg) (s : State) : Result :=
  match Memory.readBlock s.font s.mem s.base (x.val + 1) with
  | some bytes => .next (s.setRegs 0 bytes)
  | none => raiseIn .dataAddress (.loadRegs x) s

end Sys2Proof.Machine
end

