-- ==== Sys2Proof/Machine/Screen.lean ====
section
/-! DEFINITION. The display instructions (spec/43_display.md). Neither changes `pc` or `I`. -/

namespace Sys2Proof.Machine

/-- `00E0` CLS (R131): every pixel off, `dirty` set, even when the buffer was clear. -/
def execCls (s : State) : Result := .next { s with disp := Display.clear, dirty := true }

/-- What a draw leaves, given the sprite's bytes: the coordinates are the registers' values before the flag is reset
(R132 (b), D29), the buffer and `VF` are the canvas's, and `dirty` is set always (D12). -/
def State.withSprite (s : State) (x y : Reg) (sprite : List Byte) : State :=
  let c := Canvas.drawSprite ⟨s.disp, false⟩ (s.getV x).toNat (s.getV y).toNat sprite
  { s.setV VF (flagByte c.hit) with disp := c.disp, dirty := true }

/-- `DXYN` DRW Vx, Vy, N (R132): XOR-draw the `n` bytes at `mem[I]`; `VF` is the collision; `AddressFault` when the
last byte lies above 0xFFF. `n = 0` reads nothing (D30). -/
def execDrw (x y : Reg) (n : Nibble) (s : State) : Result :=
  match Memory.readBlock s.font s.mem s.base n.toNat with
  | some sprite => .next (s.withSprite x y sprite)
  | none => raiseIn .dataAddress (.drw x y n) s

end Sys2Proof.Machine
end

