-- ==== Sys2Proof/Machine/TimerKeys.lean ====
section
/-! DEFINITION. The timer and key instructions (spec/44_timers_and_keys.md). -/

namespace Sys2Proof.Machine

/-- `FX07` LD Vx, DT (R140). -/
def execLdVxDT (x : Reg) (s : State) : Result := .next (s.setV x s.DT)

/-- `FX15` LD DT, Vx (R141). -/
def execLdDTVx (x : Reg) (s : State) : Result := .next { s with DT := s.getV x }

/-- `FX18` LD ST, Vx (R142). -/
def execLdSTVx (x : Reg) (s : State) : Result := .next { s with ST := s.getV x }

/-- `EX9E` SKP Vx (R148): skip if the key is held; `KeyIndexFault` when `V[x] > 0xF`. -/
def execSkp (x : Reg) (s : State) : Result :=
  match keyIndex? (s.getV x) with
  | some k => .next (s.skipIf s.key[k])
  | none => raiseIn .keyIndex (.skp x) s

/-- `EXA1` SKNP Vx (R149): skip if the key is not held; `KeyIndexFault` when `V[x] > 0xF`. -/
def execSknp (x : Reg) (s : State) : Result :=
  match keyIndex? (s.getV x) with
  | some k => .next (s.skipIf (!s.key[k]))
  | none => raiseIn .keyIndex (.sknp x) s

/-- `FX0A` LD Vx, K (R151): the wait begins; the advance is deferred, so `pc` is `A` during it (D9). The latch is not
looked at. -/
def execLdVxK (x : Reg) (s : State) : Result :=
  .next { s with waitReg := x, mode := .waitingForKey, pc := s.instrAddr }

end Sys2Proof.Machine
end

