-- ==== Sys2Proof/Machine/Cpu.lean ====
section
/-! DEFINITION. The CPU agent's transition: fetch, advance, decode, execute (spec/40_control_flow.md R80, R90). -/

namespace Sys2Proof.Machine

/-- An unknown word: `Diag(A, word)` and nothing else; `pc` keeps the advance of fetch (R90). `s` is the state after
fetch. -/
def unknownWord (w : Word) (s : State) : State := s.emit (.diag s.instrAddr w)

/-- Execute a fetched word (R80). `s` is the state after fetch, `pc` already advanced. -/
def execWord (w : Word) (s : State) : Result :=
  match decodeWordWith s.strictLowNibble w with
  | some i => exec i s
  | none => .next (unknownWord w s)

/-- `Step` (R80): nothing in `WaitingForKey` and `Faulted`; in `Normal`, fetch at `pc` (`AddressFault` when
`pc > 0xFFE`, with `fault_op` 0), advance `pc` by 2, and execute the word. -/
def cpuStep (s : State) : Result :=
  match s.mode with
  | .faulted => .next s
  | .waitingForKey => .next s
  | .normal =>
    match Memory.fetch s.font s.mem s.pc.toNat with
    | none => .next (s.begun.raise .fetchAddress s.pc 0)
    | some w => execWord w s.begun.advance

/-- The address of the next fetch, made a legal one: 0x200 where `pc` is out of bounds. -/
def fetchableAddr (pc : Word) : Word := if pc.toNat ≤ 0xFFE then pc else 0x200

/-- The state ready to fetch and run a word at once: the word's bytes lie where the next fetch reads, the CPU runs and
moves next. The event `Load` is the machine's own way (assumption log 17). -/
def placeWord (w : Word) (s : State) : State :=
  { s with
    mem := Memory.writeBytes s.font s.mem (fetchableAddr s.pc).toNat (bytesOfWord w)
    pc := fetchableAddr s.pc
    mode := .normal
    schedule := [] }

end Sys2Proof.Machine
end

