-- ==== Sys2Proof/Machine/Events.lean ====
section
/-! DEFINITION. The transitions of the other agents, and the one function that performs any event (spec/60_exceptions.md R165). -/

namespace Sys2Proof.Machine

/-- One counter one tick later: down by 1, clamped at 0 (R143). -/
def countDown (c : Byte) : Byte := if c = 0 then 0 else c - 1

/-- `Tick` (R143): both counters count down, in every mode; the tick that finds `ST = 1` emits `Beep` (R145). -/
def tick (s : State) : State :=
  { s with
    DT := countDown s.DT
    ST := countDown s.ST
    outputs := if s.ST = 1 then .beep :: s.outputs else s.outputs }

/-- The latch update of a key event, in every mode (R147). -/
def State.setKey (s : State) (k : KeyIndex) (pressed : Bool) : State := { s with key := s.key.set k pressed }

/-- The wake transition: the key index goes to the designated register, `pc` takes the deferred advance, and the mode
returns to `Normal` (R152). -/
def State.wake (s : State) (k : KeyIndex) : State :=
  { (s.setV s.waitReg (BitVec.ofNat 8 k.val)).advance with mode := .normal }

/-- `KeyEvent(k, pressed)` (R147): a key-down during a wait wakes the CPU; every `KeyEvent(k, 1)` is a key-down edge
(D11: assumption log 10). -/
def keyEvent (k : KeyIndex) (pressed : Bool) (s : State) : State :=
  let t := s.setKey k pressed
  if pressed = true ∧ s.mode = .waitingForKey then t.wake k else t

/-- `PresentAck` (R134), in any mode. -/
def presentAck (s : State) : State := { s with dirty := false }

/-- `Load(bytes)` (R191): the image to `mem[0x200]` upwards, and nothing else. Refused when it is out of the boot order
(R192, D25) or longer than 3584 bytes (R170). -/
def load (bytes : List Byte) (s : State) : Result :=
  if s.loadAllowed = false then .refused .loadOutOfOrder
  else if imageFits bytes = false then .refused .imageTooLong
  else .next { s with mem := Memory.writeBytes s.font s.mem Config.loadBase bytes, loadAllowed := false }

/-- Perform one event, an indivisible transition (R48, R165). -/
def transition (e : Event) (s : State) : Result :=
  match e with
  | .step => cpuStep s
  | .tick => .next (tick s)
  | .keyEvent k pressed => .next (keyEvent k pressed s)
  | .presentAck => .next (presentAck s)
  | .load bytes => load bytes s
  | .reset => .next s.resetMachine
  | .quit => .fault .poweredOff

/-- Perform events one after another, stopping at the first that ends the run (R47, R48, R200). -/
def runEvents : List Event → State → Result
  | [], s => .next s
  | e :: es, s =>
    match transition e s with
    | .next t => runEvents es t
    | .fault r => .fault r
    | .refused r => .refused r

end Sys2Proof.Machine
end

