-- ==== Sys2Proof/Machine/Step.lean ====
section
/-! DEFINITION. One step of the machine: the next scheduled event, or a CPU step when none is scheduled
(spec/70_reset_and_hazards.md R200). -/

namespace Sys2Proof.Machine

/-- One transition of one agent (R48): the head of the schedule says which agent moves next; with an empty schedule the
CPU does `Step` (assumption log 14). -/
def step (s : State) : Host.Outcome State Fault Refusal :=
  match s.schedule with
  | [] => cpuStep s
  | e :: es => transition e { s with schedule := es }

/-- The state with the instruction whose `nbits` bits are `w` placed where `step` fetches next, so that the next step
runs it (assumption log 17). -/
def State.withFetchWord (s : State) (nbits w : Nat) : State := placeWord (BitVec.ofNat 16 (w % 2 ^ nbits)) s

end Sys2Proof.Machine
end

