-- ==== Sys2Proof/Safety.lean ====
section
/-! DEFINITION. The terms that claims use: what a change leaves alone, the invariant of every reachable state, and how a run
can end (spec/70_reset_and_hazards.md R202). -/

namespace Sys2Proof.Machine

/-- The parts of the state, for saying what a transition leaves unchanged. `faultRecord` is the three fields of R25. -/
inductive Part where
  | V | I | pc | SP | stack | DT | ST | disp | dirty | key | mode | waitReg | faultRecord | mem
  | schedule | outputs | randCount | loadAllowed | font | strictLowNibble
deriving DecidableEq, Repr

/-- A part is the same in two states. Memory is compared byte by byte, through the model's read of one byte. -/
def Part.same (p : Part) (s t : State) : Prop :=
  match p with
  | .V => t.V = s.V
  | .I => t.I = s.I
  | .pc => t.pc = s.pc
  | .SP => t.SP = s.SP
  | .stack => t.stack = s.stack
  | .DT => t.DT = s.DT
  | .ST => t.ST = s.ST
  | .disp => t.disp = s.disp
  | .dirty => t.dirty = s.dirty
  | .key => t.key = s.key
  | .mode => t.mode = s.mode
  | .waitReg => t.waitReg = s.waitReg
  | .faultRecord => t.faultCause = s.faultCause ∧ t.faultAddr = s.faultAddr ∧ t.faultOp = s.faultOp
  | .mem => ∀ a, t.byte a = s.byte a
  | .schedule => t.schedule = s.schedule
  | .outputs => t.outputs = s.outputs
  | .randCount => t.randCount = s.randCount
  | .loadAllowed => t.loadAllowed = s.loadAllowed
  | .font => t.font = s.font
  | .strictLowNibble => t.strictLowNibble = s.strictLowNibble

/-- Every part but the listed ones is unchanged. -/
def Keeps (changed : List Part) (s t : State) : Prop := ∀ p, p ∉ changed → p.same s t

/-- Every general register but the listed ones is unchanged. -/
def KeepsRegs (changed : List Reg) (s t : State) : Prop := ∀ r, r ∉ changed → t.getV r = s.getV r

/-- Every byte of memory outside the `n` bytes from address `a` reads as before. -/
def KeepsBytesOutside (a n : Nat) (s t : State) : Prop :=
  ∀ b, b < a ∨ a + n ≤ b → t.byte b = s.byte b

/-- The instruction `i` has raised a fault: the record names the cause, the instruction's address and its word, `pc` is
back at the instruction, and nothing else has changed (R161, R163). `s` is the state after fetch. -/
def FaultedAs (cause : FaultCause) (i : Instr) (s t : State) : Prop :=
  t.mode = .faulted ∧ t.faultCause = cause ∧ t.faultAddr = s.pc - 2 ∧ t.faultOp = encode i ∧ t.pc = s.pc - 2 ∧
    Keeps [.mode, .faultRecord, .pc] s t

/-- Some 1-bit of the `n` sprite bytes at `mem[I]` falls on the pixel, drawn at `(V[x], V[y])` with wrap-around on both
axes; bit `7 - c` of byte `r` is column `c` of row `r` (R130, R132). -/
def SpriteBitOn (s : State) (x y : Reg) (n : Nibble) (px : Fin 64) (py : Fin 32) : Prop :=
  ∃ r < n.toNat, ∃ c < 8, (s.byte (s.I.toNat + r)).getLsbD (7 - c) = true ∧
    ((s.getV x).toNat + c) % 64 = px.val ∧ ((s.getV y).toNat + r) % 32 = py.val

/-- The parts of the state an instruction may write when it does not fault. -/
def partsWritten : Instr → List Part
  | .cls => [.disp, .dirty]
  | .ret => [.pc, .SP]
  | .jp _ | .jpV0 _ => [.pc]
  | .call _ => [.pc, .SP, .stack]
  | .seImm _ _ | .sneImm _ _ | .seReg _ _ | .sneReg _ _ | .skp _ | .sknp _ => [.pc]
  | .ldImm _ _ | .addImm _ _ | .ldReg _ _ | .orReg _ _ | .andReg _ _ | .xorReg _ _ => [.V]
  | .addReg _ _ | .subReg _ _ | .shr _ _ | .subnReg _ _ | .shl _ _ | .ldVxDT _ | .loadRegs _ => [.V]
  | .ldI _ | .addI _ | .ldF _ => [.I]
  | .rnd _ _ => [.V, .randCount]
  | .drw _ _ _ => [.V, .disp, .dirty]
  | .ldVxK _ => [.pc, .mode, .waitReg]
  | .ldDTVx _ => [.DT]
  | .ldSTVx _ => [.ST]
  | .ldB _ | .storeRegs _ => [.mem]

/-- The registers an instruction names as its destination (R13): `V[x]`, or `V[0]` to `V[x]` for the block load. -/
def isDestReg (i : Instr) (r : Reg) : Bool :=
  match i with
  | .ldImm x _ | .addImm x _ | .ldReg x _ | .orReg x _ | .andReg x _ | .xorReg x _ | .addReg x _ | .subReg x _
  | .shr x _ | .subnReg x _ | .shl x _ | .rnd x _ | .ldVxDT x => r == x
  | .loadRegs x => decide (r.val ≤ x.val)
  | .cls | .ret | .jp _ | .call _ | .seImm _ _ | .sneImm _ _ | .seReg _ _ | .sneReg _ _ | .ldI _ | .jpV0 _
  | .drw _ _ _ | .skp _ | .sknp _ | .ldVxK _ | .ldDTVx _ | .ldSTVx _ | .addI _ | .ldF _ | .ldB _ | .storeRegs _ => false

/-- The six instructions that write `VF` as a side effect (R12). -/
def writesFlag : Instr → Bool
  | .addReg _ _ | .subReg _ _ | .shr _ _ | .subnReg _ _ | .shl _ _ | .drw _ _ _ => true
  | .cls | .ret | .jp _ | .call _ | .seImm _ _ | .sneImm _ _ | .seReg _ _ | .sneReg _ _ | .ldImm _ _ | .addImm _ _
  | .ldReg _ _ | .orReg _ _ | .andReg _ _ | .xorReg _ _ | .ldI _ | .jpV0 _ | .rnd _ _ | .skp _ | .sknp _ | .ldVxDT _
  | .ldVxK _ | .ldDTVx _ | .ldSTVx _ | .addI _ | .ldF _ | .ldB _ | .storeRegs _ | .loadRegs _ => false

/-- The condition under which an instruction raises a fault, and the cause (R162). -/
def faultCauseOf (i : Instr) (s : State) : Option FaultCause :=
  match i with
  | .call _ => if s.SP.val = 16 then some .stackOverflow else none
  | .ret => if s.SP.val = 0 then some .stackUnderflow else none
  | .skp x | .sknp x => if (s.getV x).toNat > 0xF then some .keyIndex else none
  | .drw _ _ n => if n.toNat ≥ 1 ∧ s.I.toNat + n.toNat - 1 > 0xFFF then some .dataAddress else none
  | .ldB _ => if s.I.toNat + 2 > 0xFFF then some .dataAddress else none
  | .storeRegs x | .loadRegs x => if s.I.toNat + x.val > 0xFFF then some .dataAddress else none
  | .cls | .jp _ | .seImm _ _ | .sneImm _ _ | .seReg _ _ | .sneReg _ _ | .ldImm _ _ | .addImm _ _ | .ldReg _ _
  | .orReg _ _ | .andReg _ _ | .xorReg _ _ | .addReg _ _ | .subReg _ _ | .shr _ _ | .subnReg _ _ | .shl _ _ | .ldI _
  | .jpV0 _ | .rnd _ _ | .ldVxDT _ | .ldVxK _ | .ldDTVx _ | .ldSTVx _ | .addI _ | .ldF _ => none

/-- What holds of every state a run reaches. -/
structure Inv (s : State) : Prop where
  /-- memory is in its canonical form, so it lists no address above 0xFFF (R26, assumption log 31) -/
  memWf : Memory.wf s.font s.mem = true
  /-- `pc` is at most 0x10FE, the largest value any rule writes (R15) -/
  pcBound : s.pc.toNat ≤ 0x10FE
  /-- only values `A + 2 <= 0x1000` are ever pushed (R83) -/
  stackBound : ∀ k : Fin 16, s.stack[k].toNat ≤ 0x1000
  /-- during a wait `pc` is the address of a fetched instruction (R151) -/
  waitFetched : s.mode = .waitingForKey → s.pc.toNat ≤ 0xFFE
  /-- a fault is recorded exactly in `Faulted` (R161, R162) -/
  faultedIff : s.mode = .faulted ↔ s.faultCause ≠ .noFault
  /-- with no fault recorded the rest of the record is zero (R25) -/
  noRecord : s.faultCause = .noFault → s.faultAddr = 0 ∧ s.faultOp = 0
  /-- in `Faulted`, `pc` is the address of the faulting instruction (R161, R163) -/
  faultPc : s.mode = .faulted → s.pc = s.faultAddr
  /-- a fetch fault is recorded with an address above 0xFFE and the word 0 (R162) -/
  fetchRecord : s.faultCause = .fetchAddress → s.faultAddr.toNat > 0xFFE ∧ s.faultOp = 0
  /-- a wait or a fault comes after the first `Step`, so no `Load` may follow (R192, assumption log 16) -/
  loadClosed : s.mode ≠ .normal → s.loadAllowed = false

/-- Parked: the instruction at `pc` is a jump to itself (R202 (b)). -/
def Parked (s : State) : Prop :=
  s.mode = .normal ∧ ∃ w nnn, Memory.fetch s.font s.mem s.pc.toNat = some w ∧ decodeWordWith s.strictLowNibble w = some (.jp nnn) ∧ zextAddr nnn = s.pc

end Sys2Proof.Machine
end

