-- ==== Sys2Proof/Certificates/Slice0/Obligations.lean ====
section
/-! DEFINITION. The statements about the machine, one definition each. In every statement about `exec`, `s` is the state
after fetch: `s.pc` is `A + 2`, where `A` is the instruction's address (spec/40_control_flow.md R80). -/

open Sys2Proof Sys2Proof.Machine

/-! Encoding (spec/30_encoding.md) -/

/-- R60 to R64: decoding the word of an instruction gives the instruction back, every operand at every value, under
either value of STRICT_LOW_NIBBLE. -/
def Obligations.DecodingAnEncodedInstructionGivesItBack : Prop :=
  ∀ (strict : Bool) (i : Instr), decodeWordWith strict (encode i) = some i

/-- R65: with STRICT_LOW_NIBBLE true a word that decodes is the word of its instruction, so each word has one meaning. -/
def Obligations.EncodingADecodedWordGivesItBack : Prop :=
  ∀ (w : Word) (i : Instr), decodeWordWith true w = some i → encode i = w

/-- R65: a word that decodes selects the row of its instruction and no other row of the opcode map; a word that does not
decode selects none. -/
def Obligations.AWordSelectsOnlyTheRowItDecodesTo : Prop :=
  ∀ w : Word,
    (∀ i, decodeWordWith true w = some i → rowOf i ∈ opcodeRows ∧ ∀ r ∈ opcodeRows, r.selects w = true ↔ r = rowOf i) ∧
    (decodeWordWith true w = none → ∀ r ∈ opcodeRows, r.selects w = false)

/-- R67 with the strictness of R68 (D15): the words that do not decode are exactly the listed ones. -/
def Obligations.UnknownWordsAreExactlyTheListedOnes : Prop :=
  ∀ w : Word, decodeWordWith true w = none ↔
    (w.toNat / 0x1000 = 0x0 ∧ w ≠ 0x00E0 ∧ w ≠ 0x00EE) ∨
    (w.toNat / 0x1000 = 0x5 ∧ w.toNat % 16 ≠ 0) ∨
    (w.toNat / 0x1000 = 0x8 ∧ w.toNat % 16 ∈ [8, 9, 0xA, 0xB, 0xC, 0xD, 0xF]) ∨
    (w.toNat / 0x1000 = 0x9 ∧ w.toNat % 16 ≠ 0) ∨
    (w.toNat / 0x1000 = 0xE ∧ w.toNat % 256 ∉ [0x9E, 0xA1]) ∨
    (w.toNat / 0x1000 = 0xF ∧ w.toNat % 256 ∉ [0x07, 0x0A, 0x15, 0x18, 0x1E, 0x29, 0x33, 0x55, 0x65])

/-- R68 (D15): with STRICT_LOW_NIBBLE false, `5XYN` and `9XYN` decode as `5XY0` and `9XY0` for every N, and every other
word decodes as before. -/
def Obligations.LooseLowNibbleChangesGroups5And9Only : Prop :=
  (∀ (x y : Reg) (n : Nibble), decodeWordWith false (fmtXYN 0x5 x y n) = some (.seReg x y) ∧
    decodeWordWith false (fmtXYN 0x9 x y n) = some (.sneReg x y)) ∧
  ∀ w : Word, w.toNat / 0x1000 ≠ 0x5 → w.toNat / 0x1000 ≠ 0x9 → decodeWordWith false w = decodeWordWith true w

/-- R61, R64 (numbers: D16): words written out from the opcode map, the three that the source prints among them, and three
unknown words of R67. That 5121 and 01E0 are unknown is the strictness of R68 (D15, assumption log 3: the default of
STRICT_LOW_NIBBLE, and the exact match of 00E0). -/
def Obligations.ListedWordsDecodeToTheirInstructions : Prop :=
  decodeTableWord 16 0x6A02 = some (.ldImm 0xA 0x02) ∧ decodeTableWord 16 0xFA29 = some (.ldF 0xA) ∧
  decodeTableWord 16 0xD0B5 = some (.drw 0x0 0xB 0x5) ∧ decodeTableWord 16 0x00E0 = some .cls ∧
  decodeTableWord 16 0x2ABC = some (.call 0xABC) ∧ decodeTableWord 16 0x8127 = some (.subnReg 0x1 0x2) ∧
  decodeTableWord 16 0xE5A1 = some (.sknp 0x5) ∧ decodeTableWord 16 0xF30A = some (.ldVxK 0x3) ∧
  decodeTableWord 16 0x0000 = none ∧ decodeTableWord 16 0x5121 = none ∧ decodeTableWord 16 0x01E0 = none

/-! Reset (spec/10_state.md R29, R30) -/

/-- The table of R29, for every value of the parameters FONT and STRICT_LOW_NIBBLE (R5): every element of the machine state
after reset, memory byte by byte; `State.reset` has the parameters at their defaults. That the timers, `dirty`, `mode` and
`wait_reg` are among the zeroed elements is decision D24, the fault record D2. -/
def Obligations.ResetLeavesTheListedValues : Prop :=
  State.reset = State.resetWith defaultFont defaultStrictLowNibble ∧
  ∀ (font : Font) (strict : Bool),
    let s := State.resetWith font strict
    (∀ r : Reg, s.getV r = 0) ∧ s.I = 0 ∧ s.pc = 0x200 ∧ s.SP = 0 ∧ (∀ k : Fin 16, s.stack[k] = 0) ∧ s.DT = 0 ∧ s.ST = 0 ∧
    (∀ x y, s.disp.pixel x y = false) ∧ s.dirty = false ∧ (∀ k : Fin 16, s.key[k] = false) ∧ s.mode = .normal ∧
    s.waitReg = 0 ∧ s.faultCause.code = 0 ∧ s.faultAddr = 0 ∧ s.faultOp = 0 ∧
    (∀ k : Fin 80, s.byte k.val = font[k]) ∧ (∀ a, 0x050 ≤ a → a ≤ 0xFFF → s.byte a = 0) ∧
    s.font = font ∧ s.strictLowNibble = strict

/-- The invariant holds after reset, for every value of the parameters. -/
def Obligations.ResetMeetsTheInvariant : Prop :=
  Inv State.reset ∧ ∀ (font : Font) (strict : Bool), Inv (State.resetWith font strict)

/-- Every step, whichever agent takes it, keeps the invariant: memory stays canonical and inside 0x000 to 0xFFF, `pc` and
the return addresses stay in the ranges R15 and R83 give, and the fault record agrees with the mode (R161 to R163; D2). That
during a wait `pc` is a fetched address is decision D9, that no `Load` may follow a wait or a fault is assumption log 16. -/
def Obligations.EveryStepKeepsTheInvariant : Prop :=
  ∀ s t : State, Inv s → step s = .next t → Inv t

/-! The step (spec/40_control_flow.md R80, R90) -/

/-- R80: in `Normal`, with the CPU to move, the two bytes at `pc`, high byte first, are decoded, `pc` advances by 2, and
the decoded instruction is executed. Around `exec` the model's step adds only that no `Load` may follow
(assumption log 16). -/
def Obligations.AStepRunsTheDecodedInstruction : Prop :=
  ∀ (s : State) (i : Instr), s.schedule = [] → s.mode = .normal → s.pc.toNat ≤ 0xFFE →
    decode s.strictLowNibble [s.byte s.pc.toNat, s.byte (s.pc.toNat + 1)] = .ok (i, []) →
    step s = exec i { s with pc := s.pc + 2, loadAllowed := false }

/-- R90: an unknown word emits `Diag` with its address and itself, leaves `pc` advanced by 2, and changes nothing else.
The event's contents are decision D23. -/
def Obligations.AnUnknownWordOnlyEmitsDiag : Prop :=
  ∀ (s : State) (w : Word), s.schedule = [] → s.mode = .normal → s.pc.toNat ≤ 0xFFE →
    w = wordOfBytes (s.byte s.pc.toNat) (s.byte (s.pc.toNat + 1)) → decodeWordWith s.strictLowNibble w = none →
    ∃ t, step s = .next t ∧ t.pc = s.pc + 2 ∧ t.outputs = .diag s.pc w :: s.outputs ∧ t.loadAllowed = false ∧
      Keeps [.pc, .outputs, .loadAllowed] s t

/-- R16, R80, R162 (D4): a fetch with `pc > 0xFFE` raises fault code 1 with `fault_addr = pc` and `fault_op = 0`, and
changes nothing else. -/
def Obligations.AFetchAboveFFERaisesFaultOne : Prop :=
  ∀ s : State, s.schedule = [] → s.mode = .normal → s.pc.toNat > 0xFFE →
    ∃ t, step s = .next t ∧ t.mode = .faulted ∧ t.faultCause.code = 1 ∧ t.faultAddr = s.pc ∧ t.faultOp = 0 ∧
      t.pc = s.pc ∧ Keeps [.mode, .faultRecord, .loadAllowed] s t

/-- R80: in wait-mode `step()` is a no-op; in `Faulted` too (D2). -/
def Obligations.AStepOutsideNormalDoesNothing : Prop :=
  ∀ s : State, s.schedule = [] → s.mode ≠ .normal → step s = .next s

/-- R48, R200 (the schedule is the model's, assumption log 14): stepping through a schedule performs its events in order,
each as one transition. -/
def Obligations.AScheduleRunsItsEventsInOrder : Prop :=
  ∀ (es : List Event) (s : State), s.schedule = [] →
    Host.Core.run Sys2Proof.core es.length { s with schedule := es } = runEvents es s

/-- The model's own (assumption log 17): with canonical memory, a word placed for the next fetch is the one that the next
step runs, in every state, and placing it changes nothing that the fetch does not need. -/
def Obligations.APlacedWordIsTheOneTheNextStepRuns : Prop :=
  ∀ (s : State) (w : Word), Memory.wf s.font s.mem = true →
    let u := s.withFetchWord 16 w.toNat
    Keeps [.mem, .pc, .mode, .schedule] s u ∧ KeepsBytesOutside u.pc.toNat 2 s u ∧ (s.pc.toNat ≤ 0xFFE → u.pc = s.pc) ∧
    (∀ i, decodeWordWith s.strictLowNibble w = some i → step u = exec i { u with pc := u.pc + 2, loadAllowed := false }) ∧
    (decodeWordWith s.strictLowNibble w = none → ∃ t, step u = .next t ∧ t.outputs = .diag u.pc w :: u.outputs)

/-! Jumps, call, return (spec/40_control_flow.md) -/

/-- R81: `pc <- zext_16(NNN)`, nothing else. -/
def Obligations.JpSetsPcToItsAddress : Prop :=
  ∀ (nnn : Addr) (s : State), ∃ t, exec (.jp nnn) s = .next t ∧ t.pc.toNat = nnn.toNat ∧ Keeps [.pc] s t

/-- R82: with `SP < 16`, call stores the advanced `pc` at `stack[SP]`, increments `SP` and jumps; nothing else. -/
def Obligations.CallPushesTheAdvancedPcAndJumps : Prop :=
  ∀ (nnn : Addr) (s : State), s.SP.val < 16 →
    ∃ t, exec (.call nnn) s = .next t ∧ t.pc.toNat = nnn.toNat ∧ t.SP.val = s.SP.val + 1 ∧
      (∀ k : Fin 16, t.stack[k] = if k.val = s.SP.val then s.pc else s.stack[k]) ∧ Keeps [.pc, .SP, .stack] s t

/-- R83: with `SP > 0`, return decrements `SP` and reads the new `stack[SP]` into `pc`; the slot keeps its value. -/
def Obligations.RetPopsIntoPc : Prop :=
  ∀ s : State, s.SP.val > 0 →
    ∃ t, exec .ret s = .next t ∧ t.SP.val = s.SP.val - 1 ∧ (∀ k : Fin 16, k.val = s.SP.val - 1 → t.pc = s.stack[k]) ∧
      Keeps [.pc, .SP] s t

/-- R19, R82, R83, R162 (D2, D3): call at `SP = 16` and return at `SP = 0` raise `StackFault`, codes 3 and 4, and change
nothing else. -/
def Obligations.CallAtFullStackAndRetAtEmptyStackFault : Prop :=
  (∀ (nnn : Addr) (s : State), s.SP.val = 16 →
    ∃ t, exec (.call nnn) s = .next t ∧ t.faultCause.code = 3 ∧ FaultedAs .stackOverflow (.call nnn) s t) ∧
  (∀ s : State, s.SP.val = 0 →
    ∃ t, exec .ret s = .next t ∧ t.faultCause.code = 4 ∧ FaultedAs .stackUnderflow .ret s t)

/-- R82 with R83: a return that finds the stack as a call left it resumes after the call, at the old depth. -/
def Obligations.ARetUndoesItsCall : Prop :=
  ∀ (nnn : Addr) (s t u : State), s.SP.val < 16 → exec (.call nnn) s = .next t → u.SP = t.SP → u.stack = t.stack →
    ∃ v, exec .ret u = .next v ∧ v.pc = s.pc ∧ v.SP = s.SP ∧ Keeps [.pc, .SP] u v

/-- R85: `pc <- NNN + V[0]`, not reduced to 12 bits (D4), nothing else. -/
def Obligations.JpV0AddsRegisterZeroWithoutReduction : Prop :=
  ∀ (nnn : Addr) (s : State),
    ∃ t, exec (.jpV0 nnn) s = .next t ∧ t.pc.toNat = nnn.toNat + (s.getV 0).toNat ∧ Keeps [.pc] s t

/-- R86, R87: `SE Vx, NN` and `SNE Vx, NN` advance `pc` by 2 more exactly when the register equals, or does not equal, the
immediate; nothing else. -/
def Obligations.SkipsOnAnImmediate : Prop :=
  ∀ (x : Reg) (nn : Byte) (s : State),
    (∃ t, exec (.seImm x nn) s = .next t ∧ t.pc = (if s.getV x = nn then s.pc + 2 else s.pc) ∧ Keeps [.pc] s t) ∧
    (∃ t, exec (.sneImm x nn) s = .next t ∧ t.pc = (if s.getV x ≠ nn then s.pc + 2 else s.pc) ∧ Keeps [.pc] s t)

/-- R88, R89: `SE Vx, Vy` and `SNE Vx, Vy` advance `pc` by 2 more exactly when the registers are equal, or not; nothing
else. -/
def Obligations.SkipsOnTwoRegisters : Prop :=
  ∀ (x y : Reg) (s : State),
    (∃ t, exec (.seReg x y) s = .next t ∧ t.pc = (if s.getV x = s.getV y then s.pc + 2 else s.pc) ∧ Keeps [.pc] s t) ∧
    (∃ t, exec (.sneReg x y) s = .next t ∧ t.pc = (if s.getV x ≠ s.getV y then s.pc + 2 else s.pc) ∧ Keeps [.pc] s t)

/-! Immediate, ALU, random (spec/41_immediate_and_alu.md) -/

/-- R100: `V[X] <- NN`, nothing else; `X = 0xF` loads `VF` like any register. -/
def Obligations.LoadImmediateWritesItsRegister : Prop :=
  ∀ (x : Reg) (nn : Byte) (s : State),
    ∃ t, exec (.ldImm x nn) s = .next t ∧ t.getV x = nn ∧ KeepsRegs [x] s t ∧ Keeps [.V] s t

/-- R101: `V[X] <- (V[X] + NN) mod 256`; no flag is written (D7); nothing else. -/
def Obligations.AddImmediateWrapsAndWritesNoFlag : Prop :=
  ∀ (x : Reg) (nn : Byte) (s : State),
    ∃ t, exec (.addImm x nn) s = .next t ∧ (t.getV x).toNat = ((s.getV x).toNat + nn.toNat) % 256 ∧
      KeepsRegs [x] s t ∧ Keeps [.V] s t

/-- R102: `V[X] <- V[Y]`; no flag is written (D7, assumption log 8); nothing else. -/
def Obligations.CopyWritesItsRegister : Prop :=
  ∀ (x y : Reg) (s : State),
    ∃ t, exec (.ldReg x y) s = .next t ∧ t.getV x = s.getV y ∧ KeepsRegs [x] s t ∧ Keeps [.V] s t

/-- R103, R104, R105: OR, AND and XOR work bit by bit on the two registers; no flag is written (D7); nothing else. -/
def Obligations.LogicWorksBitwiseAndWritesNoFlag : Prop :=
  ∀ (x y : Reg) (s : State),
    (∃ t, exec (.orReg x y) s = .next t ∧ (∀ k, (t.getV x).getLsbD k = ((s.getV x).getLsbD k || (s.getV y).getLsbD k)) ∧
      KeepsRegs [x] s t ∧ Keeps [.V] s t) ∧
    (∃ t, exec (.andReg x y) s = .next t ∧ (∀ k, (t.getV x).getLsbD k = ((s.getV x).getLsbD k && (s.getV y).getLsbD k)) ∧
      KeepsRegs [x] s t ∧ Keeps [.V] s t) ∧
    (∃ t, exec (.xorReg x y) s = .next t ∧ (∀ k, (t.getV x).getLsbD k = ((s.getV x).getLsbD k ^^ (s.getV y).getLsbD k)) ∧
      KeepsRegs [x] s t ∧ Keeps [.V] s t)

/-- R106: `ADD Vx, Vy` leaves the sum modulo 256 in `V[X]` and the carry in `VF`. The flag is written last (D6), so with
`X = 0xF` the flag is what stays; with `Y = 0xF` the old `VF` is the addend. -/
def Obligations.AddRegistersLeavesSumAndCarry : Prop :=
  ∀ (x y : Reg) (s : State),
    ∃ t, exec (.addReg x y) s = .next t ∧
      t.getV VF = (if (s.getV x).toNat + (s.getV y).toNat > 255 then 1 else 0) ∧
      (x ≠ VF → (t.getV x).toNat = ((s.getV x).toNat + (s.getV y).toNat) % 256) ∧
      KeepsRegs [x, VF] s t ∧ Keeps [.V] s t

/-- R107, R109: `SUB` and `SUBN` leave the difference modulo 256 in `V[X]` and no-borrow in `VF`. The flag is written last
(D6); the polarity of `SUBN` is the spec's derivation (conflict C9). -/
def Obligations.SubtractionsLeaveDifferenceAndNoBorrow : Prop :=
  ∀ (x y : Reg) (s : State),
    (∃ t, exec (.subReg x y) s = .next t ∧ t.getV VF = (if (s.getV x).toNat ≥ (s.getV y).toNat then 1 else 0) ∧
      (x ≠ VF → ((t.getV x).toNat : Int) = ((s.getV x).toNat - (s.getV y).toNat : Int) % 256) ∧
      KeepsRegs [x, VF] s t ∧ Keeps [.V] s t) ∧
    (∃ t, exec (.subnReg x y) s = .next t ∧ t.getV VF = (if (s.getV y).toNat ≥ (s.getV x).toNat then 1 else 0) ∧
      (x ≠ VF → ((t.getV x).toNat : Int) = ((s.getV y).toNat - (s.getV x).toNat : Int) % 256) ∧
      KeepsRegs [x, VF] s t ∧ Keeps [.V] s t)

/-- R108, R110: `SHR` halves and `SHL` doubles `V[X]` modulo 256, and `VF` is the bit shifted out; `V[Y]` is not read. The
flag is written last (D6). -/
def Obligations.ShiftsMoveByOneAndKeepTheBitShiftedOut : Prop :=
  ∀ (x y : Reg) (s : State),
    (∃ t, exec (.shr x y) s = .next t ∧ (t.getV VF).toNat = (s.getV x).toNat % 2 ∧
      (x ≠ VF → (t.getV x).toNat = (s.getV x).toNat / 2) ∧ KeepsRegs [x, VF] s t ∧ Keeps [.V] s t) ∧
    (∃ t, exec (.shl x y) s = .next t ∧ (t.getV VF).toNat = (s.getV x).toNat / 128 ∧
      (x ≠ VF → (t.getV x).toNat = (s.getV x).toNat * 2 % 256) ∧ KeepsRegs [x, VF] s t ∧ Keeps [.V] s t)

/-- R111, R112: `RND` leaves the free byte it draws AND the mask in `V[X]`, so every bit that is 0 in the mask is 0 in the
result; the next draw is another free byte (the counter is the model's, assumption log 4); nothing else. -/
def Obligations.RandomKeepsOnlyTheBitsOfItsMask : Prop :=
  ∀ (x : Reg) (nn : Byte) (s : State),
    ∃ t, exec (.rnd x nn) s = .next t ∧ t.getV x = s.randByte &&& nn ∧ (∀ k, nn.getLsbD k = false → (t.getV x).getLsbD k = false) ∧
      t.randCount = s.randCount + 1 ∧ KeepsRegs [x] s t ∧ Keeps [.V, .randCount] s t

/-- R12, R13 (D7): an instruction leaves every register alone that is neither its destination nor, for the six flag
writers, `VF`; and what the flag writers leave in `VF` is 0 or 1 (R11) unless they fault. For `X = 0xF` the second rests on the
flag being written last (D6, assumption log 7). -/
def Obligations.RegistersAreWrittenOnlyAsListed : Prop :=
  ∀ (i : Instr) (s t : State), exec i s = .next t →
    (∀ r, isDestReg i r = false → (r = VF → writesFlag i = false) → t.getV r = s.getV r) ∧
    (writesFlag i = true → faultCauseOf i s = none → t.getV VF = 0 ∨ t.getV VF = 1)

/-! Index register and memory (spec/42_index_and_memory.md, spec/20_memory.md) -/

/-- R120: `I <- zext_16(NNN)`, nothing else. -/
def Obligations.LoadIndexSetsTheIndex : Prop :=
  ∀ (nnn : Addr) (s : State), ∃ t, exec (.ldI nnn) s = .next t ∧ t.I.toNat = nnn.toNat ∧ Keeps [.I] s t

/-- R121: `I <- (I + V[X]) mod 65536`; `VF` is not written (D22); nothing else. -/
def Obligations.AddToIndexWrapsAtSixteenBits : Prop :=
  ∀ (x : Reg) (s : State),
    ∃ t, exec (.addI x) s = .next t ∧ t.I.toNat = (s.I.toNat + (s.getV x).toNat) % 65536 ∧ Keeps [.I] s t

/-- R122: `I <- 5 * V[X]`, not masked for values above 15 (D21); nothing else. -/
def Obligations.IndexFromDigitIsFiveTimesTheRegister : Prop :=
  ∀ (x : Reg) (s : State), ∃ t, exec (.ldF x) s = .next t ∧ t.I.toNat = 5 * (s.getV x).toNat ∧ Keeps [.I] s t

/-- R123: with `I + 2 <= 0xFFF`, BCD decompose stores the hundreds, tens and ones digits of `V[X]` at `I`, `I + 1`, `I + 2`;
every other byte reads as before, and `I` is unchanged (D8). A store into the font region lands like any other (R46,
D14, assumption log 13). Memory is in its canonical form, an invariant of the model. -/
def Obligations.BcdStoresThreeDigits : Prop :=
  ∀ (x : Reg) (s : State), Memory.wf s.font s.mem = true → s.I.toNat + 2 ≤ 0xFFF →
    ∃ t, exec (.ldB x) s = .next t ∧
      (t.byte s.I.toNat).toNat = (s.getV x).toNat / 100 ∧
      (t.byte (s.I.toNat + 1)).toNat = (s.getV x).toNat / 10 % 10 ∧
      (t.byte (s.I.toNat + 2)).toNat = (s.getV x).toNat % 10 ∧
      KeepsBytesOutside s.I.toNat 3 s t ∧ Keeps [.mem] s t

/-- R125: with `I + X <= 0xFFF`, block store copies `V[0]` to `V[X]` to `mem[I]` upwards; every other byte reads as before,
and `I` is unchanged (D8). A store into the font region lands like any other (R46, D14, assumption log 13). Memory is in
its canonical form, an invariant of the model. -/
def Obligations.BlockStoreCopiesRegistersToMemory : Prop :=
  ∀ (x : Reg) (s : State), Memory.wf s.font s.mem = true → s.I.toNat + x.val ≤ 0xFFF →
    ∃ t, exec (.storeRegs x) s = .next t ∧
      (∀ k : Reg, k.val ≤ x.val → t.byte (s.I.toNat + k.val) = s.getV k) ∧
      KeepsBytesOutside s.I.toNat (x.val + 1) s t ∧ Keeps [.mem] s t

/-- R126: with `I + X <= 0xFFF`, block load copies `mem[I]` upwards to `V[0]` to `V[X]`; the registers above `X`, all of
memory, and `I` (D8) are unchanged. -/
def Obligations.BlockLoadCopiesMemoryToRegisters : Prop :=
  ∀ (x : Reg) (s : State), s.I.toNat + x.val ≤ 0xFFF →
    ∃ t, exec (.loadRegs x) s = .next t ∧
      (∀ k : Reg, k.val ≤ x.val → t.getV k = s.byte (s.I.toNat + k.val)) ∧
      (∀ k : Reg, k.val > x.val → t.getV k = s.getV k) ∧ Keeps [.V] s t

/-- R53, R162, R163 (D2, D4): a data access whose last address is above 0xFFF raises fault code 2 and changes nothing else;
the address does not wrap. -/
def Obligations.DataAccessesAboveFFFRaiseFaultTwo : Prop :=
  ∀ (x y : Reg) (n : Nibble) (s : State),
    (s.I.toNat + 2 > 0xFFF → ∃ t, exec (.ldB x) s = .next t ∧ t.faultCause.code = 2 ∧ FaultedAs .dataAddress (.ldB x) s t) ∧
    (s.I.toNat + x.val > 0xFFF →
      (∃ t, exec (.storeRegs x) s = .next t ∧ t.faultCause.code = 2 ∧ FaultedAs .dataAddress (.storeRegs x) s t) ∧
      (∃ t, exec (.loadRegs x) s = .next t ∧ t.faultCause.code = 2 ∧ FaultedAs .dataAddress (.loadRegs x) s t)) ∧
    (n.toNat ≥ 1 → s.I.toNat + n.toNat - 1 > 0xFFF →
      ∃ t, exec (.drw x y n) s = .next t ∧ t.faultCause.code = 2 ∧ FaultedAs .dataAddress (.drw x y n) s t)

/-- The canonical form of memory (assumption log 31) is canonical: two memories in it with the same bytes are the same
list. -/
def Obligations.CanonicalMemoriesWithEqualBytesAreEqual : Prop :=
  ∀ (font : Font) (m m' : Memory), Memory.wf font m = true → Memory.wf font m' = true →
    (∀ a, Memory.read font m a = Memory.read font m' a) → m = m'

/-- R51, R56: a block store over the two bytes of the next instruction is seen by the next fetch, in the font region too (a
store there lands: R46, D14, assumption log 13). -/
def Obligations.AStoreIsSeenByTheNextFetch : Prop :=
  ∀ (x j k : Reg) (s t : State), Memory.wf s.font s.mem = true → s.I.toNat + x.val ≤ 0xFFF →
    s.pc.toNat = s.I.toNat + j.val → k.val = j.val + 1 → k.val ≤ x.val → exec (.storeRegs x) s = .next t →
    Memory.fetch t.font t.mem t.pc.toNat = some (wordOfBytes (s.getV j) (s.getV k))

/-! Display (spec/43_display.md) -/

/-- R131: after `CLS` every pixel is off and the dirty flag is set; nothing else changes. -/
def Obligations.ClsClearsEveryPixelAndSetsDirty : Prop :=
  ∀ s : State, ∃ t, exec .cls s = .next t ∧ (∀ x y, t.disp.pixel x y = false) ∧ t.dirty = true ∧ Keeps [.disp, .dirty] s t

/-- R132: with the sprite's bytes inside memory, or no byte at all (D30), a draw toggles exactly the pixels that a 1-bit of
the sprite falls on, coordinates wrapping on both axes; `VF` is 1 when one of those pixels was on, else 0; `dirty` is
set always (D12); nothing else changes. The coordinates are the registers' values before the flag is reset (D29). -/
def Obligations.DrawTogglesThePixelsItsBitsFallOn : Prop :=
  ∀ (x y : Reg) (n : Nibble) (s : State), n = 0 ∨ s.I.toNat + n.toNat - 1 ≤ 0xFFF →
    ∃ t, exec (.drw x y n) s = .next t ∧
      (∀ px py, t.disp.pixel px py ≠ s.disp.pixel px py ↔ SpriteBitOn s x y n px py) ∧
      (t.getV VF = 1 ∨ t.getV VF = 0) ∧
      (t.getV VF = 1 ↔ ∃ px py, SpriteBitOn s x y n px py ∧ s.disp.pixel px py = true) ∧
      t.dirty = true ∧ KeepsRegs [VF] s t ∧ Keeps [.V, .disp, .dirty] s t

/-- R133 (a): drawing the same sprite at the same position again restores the buffer, and the second draw collides exactly
when the first turned a pixel on. The state of the second draw may differ otherwise, so `X = 0xF` and `Y = 0xF` are
covered. -/
def Obligations.DrawingTwiceRestoresTheDisplay : Prop :=
  ∀ (x y : Reg) (n : Nibble) (s t t' : State), faultCauseOf (.drw x y n) s = none → exec (.drw x y n) s = .next t →
    t'.disp = t.disp → t'.I = s.I → t'.getV x = s.getV x → t'.getV y = s.getV y →
    (∀ a, t'.byte a = s.byte a) →
    ∃ u, exec (.drw x y n) t' = .next u ∧ u.disp = s.disp ∧
      (u.getV VF = 1 ↔ ∃ px py, s.disp.pixel px py = false ∧ t.disp.pixel px py = true)

/-! Timers, keys, the wait (spec/44_timers_and_keys.md) -/

/-- R140, R141, R142: `LD Vx, DT` reads the delay counter, `LD DT, Vx` and `LD ST, Vx` write the counters; nothing else. -/
def Obligations.TimerInstructionsMoveOneByte : Prop :=
  ∀ (x : Reg) (s : State),
    (∃ t, exec (.ldVxDT x) s = .next t ∧ t.getV x = s.DT ∧ KeepsRegs [x] s t ∧ Keeps [.V] s t) ∧
    (∃ t, exec (.ldDTVx x) s = .next t ∧ t.DT = s.getV x ∧ Keeps [.DT] s t) ∧
    (∃ t, exec (.ldSTVx x) s = .next t ∧ t.ST = s.getV x ∧ Keeps [.ST] s t)

/-- R143, R144, R145: after `n` ticks, in any mode (D28), each counter is `max(v - n, 0)`; exactly one `Beep` is emitted, by
the tick that takes the sound counter from 1 to 0, if one does; nothing else changes. -/
def Obligations.TicksCountBothTimersDownToZero : Prop :=
  ∀ (n : Nat) (s : State),
    ∃ t, runEvents (List.replicate n .tick) s = .next t ∧ t.DT.toNat = s.DT.toNat - n ∧ t.ST.toNat = s.ST.toNat - n ∧
      t.outputs = (if 1 ≤ s.ST.toNat ∧ s.ST.toNat ≤ n then .beep :: s.outputs else s.outputs) ∧
      Keeps [.DT, .ST, .outputs] s t

/-- R148, R149: with `V[X]` at most 15, `SKP` skips exactly when the key is held and `SKNP` exactly when it is not; nothing
else. -/
def Obligations.KeySkipsFollowTheLatch : Prop :=
  ∀ (x : Reg) (k : KeyIndex) (s : State), (s.getV x).toNat = k.val →
    (∃ t, exec (.skp x) s = .next t ∧ t.pc = (if s.key[k] = true then s.pc + 2 else s.pc) ∧ Keeps [.pc] s t) ∧
    (∃ t, exec (.sknp x) s = .next t ∧ t.pc = (if s.key[k] = false then s.pc + 2 else s.pc) ∧ Keeps [.pc] s t)

/-- R148, R149, R162 (D2, D5): with `V[X]` above 15 the key skips raise `KeyIndexFault`, code 5, and change nothing else. -/
def Obligations.KeySkipsAboveFifteenRaiseFaultFive : Prop :=
  ∀ (x : Reg) (s : State), (s.getV x).toNat > 0xF →
    (∃ t, exec (.skp x) s = .next t ∧ t.faultCause.code = 5 ∧ FaultedAs .keyIndex (.skp x) s t) ∧
    (∃ t, exec (.sknp x) s = .next t ∧ t.faultCause.code = 5 ∧ FaultedAs .keyIndex (.sknp x) s t)

/-- R151: `LD Vx, K` enters the wait for register `X`, whatever keys are held; `pc` goes back to the instruction's address
(D9); nothing else, `V[X]` included. -/
def Obligations.WaitForKeyEntersTheWait : Prop :=
  ∀ (x : Reg) (s : State),
    ∃ t, exec (.ldVxK x) s = .next t ∧ t.mode = .waitingForKey ∧ t.waitReg = x ∧ t.pc = s.pc - 2 ∧
      Keeps [.pc, .mode, .waitReg] s t

/-- R147, R152: a key event updates the latch, in every mode (D28); a key-down during a wait also writes the key index to
the designated register, advances `pc` by 2 and returns to `Normal`; nothing else changes. Every key-down event counts
as an edge (D11). -/
def Obligations.KeyEventsUpdateTheLatchAndWakeTheWait : Prop :=
  ∀ (k : KeyIndex) (p : Bool) (s : State),
    ∃ t, transition (.keyEvent k p) s = .next t ∧ (∀ j : KeyIndex, t.key[j] = if j = k then p else s.key[j]) ∧
      (p = true ∧ s.mode = .waitingForKey →
        (t.getV s.waitReg).toNat = k.val ∧ t.pc = s.pc + 2 ∧ t.mode = .normal ∧ KeepsRegs [s.waitReg] s t ∧
          Keeps [.key, .V, .pc, .mode] s t) ∧
      (¬ (p = true ∧ s.mode = .waitingForKey) → Keeps [.key] s t)

/-- R153: during a wait any run of steps, ticks, key-up events and presentation acknowledgements leaves the machine waiting,
and every register, memory byte and pixel as it was, apart from `DT`, `ST`, `key`, `dirty` and the `Beep`s; the wait
never ends by itself. -/
def Obligations.TheWaitKeepsEverythingUntilAKeyGoesDown : Prop :=
  ∀ (es : List Event) (s : State), s.mode = .waitingForKey →
    (∀ e ∈ es, e = .step ∨ e = .tick ∨ e = .presentAck ∨ ∃ k, e = .keyEvent k false) →
    ∃ t, runEvents es s = .next t ∧ t.mode = .waitingForKey ∧ Keeps [.DT, .ST, .key, .dirty, .outputs] s t

/-! Host events (spec/43_display.md R134, spec/70_reset_and_hazards.md) -/

/-- R134, R190: `PresentAck` clears `dirty` and nothing else; `Reset`, in any state, gives every element of the machine
state its reset value, the parameters staying and the model's own record of outputs, draws and schedule going on (assumption
log 22). -/
def Obligations.PresentAckClearsDirtyAndResetResets : Prop :=
  ∀ s : State,
    (∃ t, transition .presentAck s = .next t ∧ t.dirty = false ∧ Keeps [.dirty] s t) ∧
    (∃ t, transition .reset s = .next t ∧ Keeps [.schedule, .outputs, .randCount] (State.resetWith s.font s.strictLowNibble) t ∧
      t.schedule = s.schedule ∧ t.outputs = s.outputs ∧ t.randCount = s.randCount)

/-- R191, R192 (D25): while a `Load` may still come (since reset no other and no CPU step in `Normal`: `loadAllowed`,
assumption log 16), `Load` of an image of at most 3584 bytes copies it to `mem[0x200]` upwards and changes nothing else;
a longer image, and a `Load` at any other time, is refused. Memory is in its canonical form, an invariant of the
model. -/
def Obligations.LoadCopiesTheImageOnceBeforeTheFirstStep : Prop :=
  ∀ (bytes : List Byte) (s : State), Memory.wf s.font s.mem = true →
    (s.loadAllowed = true → bytes.length ≤ 3584 →
      ∃ t, transition (.load bytes) s = .next t ∧
        (∀ k (h : k < bytes.length), t.byte (0x200 + k) = bytes[k]) ∧
        KeepsBytesOutside 0x200 bytes.length s t ∧ t.loadAllowed = false ∧ Keeps [.mem, .loadAllowed] s t) ∧
    (s.loadAllowed = true → bytes.length > 3584 → transition (.load bytes) s = .refused .imageTooLong) ∧
    (s.loadAllowed = false → transition (.load bytes) s = .refused .loadOutOfOrder)

/-! Whole-machine rules -/

/-- R5: the parameters are fixed for a machine: no transition of any agent changes FONT or STRICT_LOW_NIBBLE. That State holds
them is the model's (assumption log 32). -/
def Obligations.NoTransitionChangesTheParameters : Prop :=
  ∀ (e : Event) (s t : State), transition e s = .next t → t.font = s.font ∧ t.strictLowNibble = s.strictLowNibble

/-- R80: executing an instruction always answers a next state: no instruction of the machine stops the model. -/
def Obligations.EveryInstructionAnswersANextState : Prop :=
  ∀ (i : Instr) (s : State), ∃ t, exec i s = .next t

/-- R15, R17, R18, R20, R22, R23, R40, R146, D8: an instruction that raises no fault changes only the parts its rule
writes: the display by `CLS` and `DRW` alone, memory by `FX33` and `FX55` alone, `I` by `ANNN`, `FX1E` and `FX29` alone,
the stack by call and return alone, the timers by `FX15` and `FX18` alone (G3, assumption log 19), the latch by none. That
`FX1E` writes no flag is decision D22. -/
def Obligations.EachInstructionChangesOnlyItsParts : Prop :=
  ∀ (i : Instr) (s t : State), exec i s = .next t → faultCauseOf i s = none → Keeps (partsWritten i) s t

/-- R162, R163 (D2): an instruction raises a fault exactly under its listed condition, with the listed cause, and then
nothing but the record, `mode` and `pc` has changed; from `Normal`, no other instruction and no other condition leads to
`Faulted`. -/
def Obligations.FaultsAreExactlyTheListedOnesAndPrecise : Prop :=
  ∀ (i : Instr) (s t : State), exec i s = .next t →
    (∀ cause, faultCauseOf i s = some cause → FaultedAs cause i s t) ∧
    (faultCauseOf i s = none → s.mode = .normal → t.mode ≠ .faulted)

/-- R161, R168 (D2): without a reset, a run that goes on from `Faulted` stays there, keeps the first fault record, and
changes only what ticks, key events and acknowledgements change (D28). The state is one that a run reaches (`Inv`). -/
def Obligations.FaultedIsAbsorbingUntilReset : Prop :=
  ∀ (es : List Event) (s t : State), Inv s → s.mode = .faulted → .reset ∉ es → runEvents es s = .next t →
    t.mode = .faulted ∧ Keeps [.DT, .ST, .key, .dirty, .outputs] s t

/-- R202 (b): in a parked machine every further CPU step leaves all state unchanged. -/
def Obligations.AParkedMachineStaysParked : Prop :=
  ∀ s : State, Parked s → s.schedule = [] → s.loadAllowed = false → step s = .next s

/-- R23, R134, R142, R145: no instruction reads `dirty`, `ST` or the output pulses, so what they hold has no effect on any
other part of a run, whatever events occur. That no instruction reads `ST` is the spec's general knowledge (R20, G3,
assumption log 19). -/
def Obligations.DirtyAndSoundHaveNoEffectOnExecution : Prop :=
  ∀ (es : List Event) (s t : State) (d : Bool) (c : Byte) (o : List Output), runEvents es s = .next t →
    ∃ d' c' o', runEvents es { s with dirty := d, ST := c, outputs := o } =
      .next { t with dirty := d', ST := c', outputs := o' }
end

