-- ==== Sys2Proof/Laws/Decode.lean ====
section
/-! SUPPORT. Small lemmas of the encoding, all through the number a word stands for: the value of each field, the value of
each format, the fields of each format, and that every instruction is well formed. -/

namespace Sys2Proof

/-- Every instruction term is well formed: its operands have the width of their fields. -/
theorem Laws.WellFormed.instr_wf (i : Instr) : i.wf = true := by
  have h4 (x : Reg) : x.val < 16 := x.isLt
  have hn (n : Nibble) : n.toNat < 16 := n.isLt
  have h8 (nn : Byte) : nn.toNat < 256 := nn.isLt
  have h12 (nnn : Addr) : nnn.toNat < 4096 := nnn.isLt
  cases i <;> simp [Instr.wf, Instr.operands, operandsFit, h4, hn, h8, h12]

/-! The value of a field -/

theorem toNat_fieldOp (w : Word) : (fieldOp w).toNat = w.toNat / 4096 % 16 := by
  simp [fieldOp, Nat.shiftRight_eq_div_pow]
theorem val_fieldX (w : Word) : (fieldX w).val = w.toNat / 256 % 16 := by
  simp [fieldX, Nat.shiftRight_eq_div_pow]
theorem val_fieldY (w : Word) : (fieldY w).val = w.toNat / 16 % 16 := by
  simp [fieldY, Nat.shiftRight_eq_div_pow]
theorem toNat_fieldN (w : Word) : (fieldN w).toNat = w.toNat % 16 := by
  simp [fieldN]
theorem toNat_fieldNN (w : Word) : (fieldNN w).toNat = w.toNat % 256 := by
  simp [fieldNN]
theorem toNat_fieldNNN (w : Word) : (fieldNNN w).toNat = w.toNat % 4096 := by
  simp [fieldNNN]

/-! The value of a format -/

theorem toNat_append_eq {n m : Nat} (a : BitVec n) (b : BitVec m) : (a ++ b).toNat = a.toNat * 2 ^ m + b.toNat := by
  rw [BitVec.toNat_append, ← Nat.shiftLeft_add_eq_or_of_lt b.isLt, Nat.shiftLeft_eq]

@[simp] theorem toNat_regBits (x : Reg) : (regBits x).toNat = x.val := by
  simp [regBits]

theorem toNat_fmtADDR (op : Nibble) (nnn : Addr) : (fmtADDR op nnn).toNat = op.toNat * 4096 + nnn.toNat :=
  toNat_append_eq op nnn

theorem toNat_fmtXNN (op : Nibble) (x : Reg) (nn : Byte) :
    (fmtXNN op x nn).toNat = op.toNat * 4096 + x.val * 256 + nn.toNat := by
  have h : (fmtXNN op x nn).toNat = (op ++ regBits x).toNat * 2 ^ 8 + nn.toNat := toNat_append_eq _ _
  rw [h, toNat_append_eq, toNat_regBits]; omega

theorem toNat_fmtXYN (op : Nibble) (x y : Reg) (n : Nibble) :
    (fmtXYN op x y n).toNat = op.toNat * 4096 + x.val * 256 + y.val * 16 + n.toNat := by
  have h : (fmtXYN op x y n).toNat = (op ++ regBits x ++ regBits y).toNat * 2 ^ 4 + n.toNat := toNat_append_eq _ _
  rw [h, toNat_append_eq, toNat_append_eq, toNat_regBits, toNat_regBits]; omega

/-! The fields of a format -/

@[simp] theorem fieldOp_fmtADDR (op : Nibble) (nnn : Addr) : fieldOp (fmtADDR op nnn) = op :=
  BitVec.eq_of_toNat_eq (by rw [toNat_fieldOp, toNat_fmtADDR]; omega)
@[simp] theorem fieldNNN_fmtADDR (op : Nibble) (nnn : Addr) : fieldNNN (fmtADDR op nnn) = nnn :=
  BitVec.eq_of_toNat_eq (by rw [toNat_fieldNNN, toNat_fmtADDR]; omega)

@[simp] theorem fieldOp_fmtXNN (op : Nibble) (x : Reg) (nn : Byte) : fieldOp (fmtXNN op x nn) = op :=
  BitVec.eq_of_toNat_eq (by rw [toNat_fieldOp, toNat_fmtXNN]; omega)
@[simp] theorem fieldX_fmtXNN (op : Nibble) (x : Reg) (nn : Byte) : fieldX (fmtXNN op x nn) = x :=
  Fin.ext (by rw [val_fieldX, toNat_fmtXNN]; omega)
@[simp] theorem fieldNN_fmtXNN (op : Nibble) (x : Reg) (nn : Byte) : fieldNN (fmtXNN op x nn) = nn :=
  BitVec.eq_of_toNat_eq (by rw [toNat_fieldNN, toNat_fmtXNN]; omega)

@[simp] theorem fieldOp_fmtXYN (op : Nibble) (x y : Reg) (n : Nibble) : fieldOp (fmtXYN op x y n) = op :=
  BitVec.eq_of_toNat_eq (by rw [toNat_fieldOp, toNat_fmtXYN]; omega)
@[simp] theorem fieldX_fmtXYN (op : Nibble) (x y : Reg) (n : Nibble) : fieldX (fmtXYN op x y n) = x :=
  Fin.ext (by rw [val_fieldX, toNat_fmtXYN]; omega)
@[simp] theorem fieldY_fmtXYN (op : Nibble) (x y : Reg) (n : Nibble) : fieldY (fmtXYN op x y n) = y :=
  Fin.ext (by rw [val_fieldY, toNat_fmtXYN]; omega)
@[simp] theorem fieldN_fmtXYN (op : Nibble) (x y : Reg) (n : Nibble) : fieldN (fmtXYN op x y n) = n :=
  BitVec.eq_of_toNat_eq (by rw [toNat_fieldN, toNat_fmtXYN]; omega)

/-- The bytes of a word make the word again, so fetch reads what a two-byte store of a word left. -/
theorem wordOfBytes_bytesOfWord (w : Word) : bytesOfWord w = [w.extractLsb' 8 8, w.extractLsb' 0 8] ∧
    wordOfBytes (w.extractLsb' 8 8) (w.extractLsb' 0 8) = w := by
  refine ⟨rfl, BitVec.eq_of_toNat_eq ?_⟩
  have h : (wordOfBytes (w.extractLsb' 8 8) (w.extractLsb' 0 8)).toNat
      = (w.extractLsb' 8 8).toNat * 2 ^ 8 + (w.extractLsb' 0 8).toNat := toNat_append_eq _ _
  rw [h, BitVec.extractLsb'_toNat, BitVec.extractLsb'_toNat, Nat.shiftRight_eq_div_pow]
  omega

end Sys2Proof
end

