-- ==== Sys2Proof/Laws/State.lean ====
section
/-! SUPPORT. One lemma per field per update of the state, so that no proof unfolds a record update. -/

namespace Sys2Proof.Machine

section Updates
variable (s : State)

/-! `setV` -/

@[simp] theorem State.setV_V (x : Reg) (b : Byte) : (s.setV x b).V = s.V.set x b := rfl
@[simp] theorem State.setV_I (x : Reg) (b : Byte) : (s.setV x b).I = s.I := rfl
@[simp] theorem State.setV_pc (x : Reg) (b : Byte) : (s.setV x b).pc = s.pc := rfl
@[simp] theorem State.setV_SP (x : Reg) (b : Byte) : (s.setV x b).SP = s.SP := rfl
@[simp] theorem State.setV_stack (x : Reg) (b : Byte) : (s.setV x b).stack = s.stack := rfl
@[simp] theorem State.setV_DT (x : Reg) (b : Byte) : (s.setV x b).DT = s.DT := rfl
@[simp] theorem State.setV_ST (x : Reg) (b : Byte) : (s.setV x b).ST = s.ST := rfl
@[simp] theorem State.setV_disp (x : Reg) (b : Byte) : (s.setV x b).disp = s.disp := rfl
@[simp] theorem State.setV_dirty (x : Reg) (b : Byte) : (s.setV x b).dirty = s.dirty := rfl
@[simp] theorem State.setV_key (x : Reg) (b : Byte) : (s.setV x b).key = s.key := rfl
@[simp] theorem State.setV_mode (x : Reg) (b : Byte) : (s.setV x b).mode = s.mode := rfl
@[simp] theorem State.setV_waitReg (x : Reg) (b : Byte) : (s.setV x b).waitReg = s.waitReg := rfl
@[simp] theorem State.setV_faultCause (x : Reg) (b : Byte) : (s.setV x b).faultCause = s.faultCause := rfl
@[simp] theorem State.setV_faultAddr (x : Reg) (b : Byte) : (s.setV x b).faultAddr = s.faultAddr := rfl
@[simp] theorem State.setV_faultOp (x : Reg) (b : Byte) : (s.setV x b).faultOp = s.faultOp := rfl
@[simp] theorem State.setV_mem (x : Reg) (b : Byte) : (s.setV x b).mem = s.mem := rfl
@[simp] theorem State.setV_schedule (x : Reg) (b : Byte) : (s.setV x b).schedule = s.schedule := rfl
@[simp] theorem State.setV_outputs (x : Reg) (b : Byte) : (s.setV x b).outputs = s.outputs := rfl
@[simp] theorem State.setV_randCount (x : Reg) (b : Byte) : (s.setV x b).randCount = s.randCount := rfl
@[simp] theorem State.setV_loadAllowed (x : Reg) (b : Byte) : (s.setV x b).loadAllowed = s.loadAllowed := rfl
@[simp] theorem State.setV_font (x : Reg) (b : Byte) : (s.setV x b).font = s.font := rfl
@[simp] theorem State.setV_strictLowNibble (x : Reg) (b : Byte) :
    (s.setV x b).strictLowNibble = s.strictLowNibble := rfl

/-! `setResultFlag` -/

@[simp] theorem State.setResultFlag_V (x : Reg) (b : Byte) (f : Bool) :
    (s.setResultFlag x b f).V =
      (s.V.set x b).set VF (flagByte f) := rfl
@[simp] theorem State.setResultFlag_I (x : Reg) (b : Byte) (f : Bool) : (s.setResultFlag x b f).I = s.I := rfl
@[simp] theorem State.setResultFlag_pc (x : Reg) (b : Byte) (f : Bool) : (s.setResultFlag x b f).pc = s.pc := rfl
@[simp] theorem State.setResultFlag_SP (x : Reg) (b : Byte) (f : Bool) : (s.setResultFlag x b f).SP = s.SP := rfl
@[simp] theorem State.setResultFlag_stack (x : Reg) (b : Byte) (f : Bool) :
    (s.setResultFlag x b f).stack =
      s.stack := rfl
@[simp] theorem State.setResultFlag_DT (x : Reg) (b : Byte) (f : Bool) : (s.setResultFlag x b f).DT = s.DT := rfl
@[simp] theorem State.setResultFlag_ST (x : Reg) (b : Byte) (f : Bool) : (s.setResultFlag x b f).ST = s.ST := rfl
@[simp] theorem State.setResultFlag_disp (x : Reg) (b : Byte) (f : Bool) : (s.setResultFlag x b f).disp = s.disp := rfl
@[simp] theorem State.setResultFlag_dirty (x : Reg) (b : Byte) (f : Bool) :
    (s.setResultFlag x b f).dirty =
      s.dirty := rfl
@[simp] theorem State.setResultFlag_key (x : Reg) (b : Byte) (f : Bool) : (s.setResultFlag x b f).key = s.key := rfl
@[simp] theorem State.setResultFlag_mode (x : Reg) (b : Byte) (f : Bool) : (s.setResultFlag x b f).mode = s.mode := rfl
@[simp] theorem State.setResultFlag_waitReg (x : Reg) (b : Byte) (f : Bool) :
    (s.setResultFlag x b f).waitReg =
      s.waitReg := rfl
@[simp] theorem State.setResultFlag_faultCause (x : Reg) (b : Byte) (f : Bool) :
    (s.setResultFlag x b f).faultCause =
      s.faultCause := rfl
@[simp] theorem State.setResultFlag_faultAddr (x : Reg) (b : Byte) (f : Bool) :
    (s.setResultFlag x b f).faultAddr =
      s.faultAddr := rfl
@[simp] theorem State.setResultFlag_faultOp (x : Reg) (b : Byte) (f : Bool) :
    (s.setResultFlag x b f).faultOp =
      s.faultOp := rfl
@[simp] theorem State.setResultFlag_mem (x : Reg) (b : Byte) (f : Bool) : (s.setResultFlag x b f).mem = s.mem := rfl
@[simp] theorem State.setResultFlag_schedule (x : Reg) (b : Byte) (f : Bool) :
    (s.setResultFlag x b f).schedule =
      s.schedule := rfl
@[simp] theorem State.setResultFlag_outputs (x : Reg) (b : Byte) (f : Bool) :
    (s.setResultFlag x b f).outputs =
      s.outputs := rfl
@[simp] theorem State.setResultFlag_randCount (x : Reg) (b : Byte) (f : Bool) :
    (s.setResultFlag x b f).randCount =
      s.randCount := rfl
@[simp] theorem State.setResultFlag_loadAllowed (x : Reg) (b : Byte) (f : Bool) :
    (s.setResultFlag x b f).loadAllowed =
      s.loadAllowed := rfl
@[simp] theorem State.setResultFlag_font (x : Reg) (b : Byte) (f : Bool) :
    (s.setResultFlag x b f).font = s.font := rfl
@[simp] theorem State.setResultFlag_strictLowNibble (x : Reg) (b : Byte) (f : Bool) :
    (s.setResultFlag x b f).strictLowNibble = s.strictLowNibble := rfl

/-! `advance` -/

@[simp] theorem State.advance_V : (s.advance).V = s.V := rfl
@[simp] theorem State.advance_I : (s.advance).I = s.I := rfl
@[simp] theorem State.advance_pc : (s.advance).pc = s.pc + 2 := rfl
@[simp] theorem State.advance_SP : (s.advance).SP = s.SP := rfl
@[simp] theorem State.advance_stack : (s.advance).stack = s.stack := rfl
@[simp] theorem State.advance_DT : (s.advance).DT = s.DT := rfl
@[simp] theorem State.advance_ST : (s.advance).ST = s.ST := rfl
@[simp] theorem State.advance_disp : (s.advance).disp = s.disp := rfl
@[simp] theorem State.advance_dirty : (s.advance).dirty = s.dirty := rfl
@[simp] theorem State.advance_key : (s.advance).key = s.key := rfl
@[simp] theorem State.advance_mode : (s.advance).mode = s.mode := rfl
@[simp] theorem State.advance_waitReg : (s.advance).waitReg = s.waitReg := rfl
@[simp] theorem State.advance_faultCause : (s.advance).faultCause = s.faultCause := rfl
@[simp] theorem State.advance_faultAddr : (s.advance).faultAddr = s.faultAddr := rfl
@[simp] theorem State.advance_faultOp : (s.advance).faultOp = s.faultOp := rfl
@[simp] theorem State.advance_mem : (s.advance).mem = s.mem := rfl
@[simp] theorem State.advance_schedule : (s.advance).schedule = s.schedule := rfl
@[simp] theorem State.advance_outputs : (s.advance).outputs = s.outputs := rfl
@[simp] theorem State.advance_randCount : (s.advance).randCount = s.randCount := rfl
@[simp] theorem State.advance_loadAllowed : (s.advance).loadAllowed = s.loadAllowed := rfl
@[simp] theorem State.advance_font : (s.advance).font = s.font := rfl
@[simp] theorem State.advance_strictLowNibble : (s.advance).strictLowNibble = s.strictLowNibble := rfl

/-! `jump` -/

@[simp] theorem State.jump_V (a : Word) : (s.jump a).V = s.V := rfl
@[simp] theorem State.jump_I (a : Word) : (s.jump a).I = s.I := rfl
@[simp] theorem State.jump_pc (a : Word) : (s.jump a).pc = a := rfl
@[simp] theorem State.jump_SP (a : Word) : (s.jump a).SP = s.SP := rfl
@[simp] theorem State.jump_stack (a : Word) : (s.jump a).stack = s.stack := rfl
@[simp] theorem State.jump_DT (a : Word) : (s.jump a).DT = s.DT := rfl
@[simp] theorem State.jump_ST (a : Word) : (s.jump a).ST = s.ST := rfl
@[simp] theorem State.jump_disp (a : Word) : (s.jump a).disp = s.disp := rfl
@[simp] theorem State.jump_dirty (a : Word) : (s.jump a).dirty = s.dirty := rfl
@[simp] theorem State.jump_key (a : Word) : (s.jump a).key = s.key := rfl
@[simp] theorem State.jump_mode (a : Word) : (s.jump a).mode = s.mode := rfl
@[simp] theorem State.jump_waitReg (a : Word) : (s.jump a).waitReg = s.waitReg := rfl
@[simp] theorem State.jump_faultCause (a : Word) : (s.jump a).faultCause = s.faultCause := rfl
@[simp] theorem State.jump_faultAddr (a : Word) : (s.jump a).faultAddr = s.faultAddr := rfl
@[simp] theorem State.jump_faultOp (a : Word) : (s.jump a).faultOp = s.faultOp := rfl
@[simp] theorem State.jump_mem (a : Word) : (s.jump a).mem = s.mem := rfl
@[simp] theorem State.jump_schedule (a : Word) : (s.jump a).schedule = s.schedule := rfl
@[simp] theorem State.jump_outputs (a : Word) : (s.jump a).outputs = s.outputs := rfl
@[simp] theorem State.jump_randCount (a : Word) : (s.jump a).randCount = s.randCount := rfl
@[simp] theorem State.jump_loadAllowed (a : Word) : (s.jump a).loadAllowed = s.loadAllowed := rfl
@[simp] theorem State.jump_font (a : Word) : (s.jump a).font = s.font := rfl
@[simp] theorem State.jump_strictLowNibble (a : Word) : (s.jump a).strictLowNibble = s.strictLowNibble := rfl

/-! `emit` -/

@[simp] theorem State.emit_V (o : Output) : (s.emit o).V = s.V := rfl
@[simp] theorem State.emit_I (o : Output) : (s.emit o).I = s.I := rfl
@[simp] theorem State.emit_pc (o : Output) : (s.emit o).pc = s.pc := rfl
@[simp] theorem State.emit_SP (o : Output) : (s.emit o).SP = s.SP := rfl
@[simp] theorem State.emit_stack (o : Output) : (s.emit o).stack = s.stack := rfl
@[simp] theorem State.emit_DT (o : Output) : (s.emit o).DT = s.DT := rfl
@[simp] theorem State.emit_ST (o : Output) : (s.emit o).ST = s.ST := rfl
@[simp] theorem State.emit_disp (o : Output) : (s.emit o).disp = s.disp := rfl
@[simp] theorem State.emit_dirty (o : Output) : (s.emit o).dirty = s.dirty := rfl
@[simp] theorem State.emit_key (o : Output) : (s.emit o).key = s.key := rfl
@[simp] theorem State.emit_mode (o : Output) : (s.emit o).mode = s.mode := rfl
@[simp] theorem State.emit_waitReg (o : Output) : (s.emit o).waitReg = s.waitReg := rfl
@[simp] theorem State.emit_faultCause (o : Output) : (s.emit o).faultCause = s.faultCause := rfl
@[simp] theorem State.emit_faultAddr (o : Output) : (s.emit o).faultAddr = s.faultAddr := rfl
@[simp] theorem State.emit_faultOp (o : Output) : (s.emit o).faultOp = s.faultOp := rfl
@[simp] theorem State.emit_mem (o : Output) : (s.emit o).mem = s.mem := rfl
@[simp] theorem State.emit_schedule (o : Output) : (s.emit o).schedule = s.schedule := rfl
@[simp] theorem State.emit_outputs (o : Output) : (s.emit o).outputs = o :: s.outputs := rfl
@[simp] theorem State.emit_randCount (o : Output) : (s.emit o).randCount = s.randCount := rfl
@[simp] theorem State.emit_loadAllowed (o : Output) : (s.emit o).loadAllowed = s.loadAllowed := rfl
@[simp] theorem State.emit_font (o : Output) : (s.emit o).font = s.font := rfl
@[simp] theorem State.emit_strictLowNibble (o : Output) : (s.emit o).strictLowNibble = s.strictLowNibble := rfl

/-! `drawn` -/

@[simp] theorem State.drawn_V : (s.drawn).V = s.V := rfl
@[simp] theorem State.drawn_I : (s.drawn).I = s.I := rfl
@[simp] theorem State.drawn_pc : (s.drawn).pc = s.pc := rfl
@[simp] theorem State.drawn_SP : (s.drawn).SP = s.SP := rfl
@[simp] theorem State.drawn_stack : (s.drawn).stack = s.stack := rfl
@[simp] theorem State.drawn_DT : (s.drawn).DT = s.DT := rfl
@[simp] theorem State.drawn_ST : (s.drawn).ST = s.ST := rfl
@[simp] theorem State.drawn_disp : (s.drawn).disp = s.disp := rfl
@[simp] theorem State.drawn_dirty : (s.drawn).dirty = s.dirty := rfl
@[simp] theorem State.drawn_key : (s.drawn).key = s.key := rfl
@[simp] theorem State.drawn_mode : (s.drawn).mode = s.mode := rfl
@[simp] theorem State.drawn_waitReg : (s.drawn).waitReg = s.waitReg := rfl
@[simp] theorem State.drawn_faultCause : (s.drawn).faultCause = s.faultCause := rfl
@[simp] theorem State.drawn_faultAddr : (s.drawn).faultAddr = s.faultAddr := rfl
@[simp] theorem State.drawn_faultOp : (s.drawn).faultOp = s.faultOp := rfl
@[simp] theorem State.drawn_mem : (s.drawn).mem = s.mem := rfl
@[simp] theorem State.drawn_schedule : (s.drawn).schedule = s.schedule := rfl
@[simp] theorem State.drawn_outputs : (s.drawn).outputs = s.outputs := rfl
@[simp] theorem State.drawn_randCount : (s.drawn).randCount = s.randCount + 1 := rfl
@[simp] theorem State.drawn_loadAllowed : (s.drawn).loadAllowed = s.loadAllowed := rfl
@[simp] theorem State.drawn_font : (s.drawn).font = s.font := rfl
@[simp] theorem State.drawn_strictLowNibble : (s.drawn).strictLowNibble = s.strictLowNibble := rfl

/-! `begun` -/

@[simp] theorem State.begun_V : (s.begun).V = s.V := rfl
@[simp] theorem State.begun_I : (s.begun).I = s.I := rfl
@[simp] theorem State.begun_pc : (s.begun).pc = s.pc := rfl
@[simp] theorem State.begun_SP : (s.begun).SP = s.SP := rfl
@[simp] theorem State.begun_stack : (s.begun).stack = s.stack := rfl
@[simp] theorem State.begun_DT : (s.begun).DT = s.DT := rfl
@[simp] theorem State.begun_ST : (s.begun).ST = s.ST := rfl
@[simp] theorem State.begun_disp : (s.begun).disp = s.disp := rfl
@[simp] theorem State.begun_dirty : (s.begun).dirty = s.dirty := rfl
@[simp] theorem State.begun_key : (s.begun).key = s.key := rfl
@[simp] theorem State.begun_mode : (s.begun).mode = s.mode := rfl
@[simp] theorem State.begun_waitReg : (s.begun).waitReg = s.waitReg := rfl
@[simp] theorem State.begun_faultCause : (s.begun).faultCause = s.faultCause := rfl
@[simp] theorem State.begun_faultAddr : (s.begun).faultAddr = s.faultAddr := rfl
@[simp] theorem State.begun_faultOp : (s.begun).faultOp = s.faultOp := rfl
@[simp] theorem State.begun_mem : (s.begun).mem = s.mem := rfl
@[simp] theorem State.begun_schedule : (s.begun).schedule = s.schedule := rfl
@[simp] theorem State.begun_outputs : (s.begun).outputs = s.outputs := rfl
@[simp] theorem State.begun_randCount : (s.begun).randCount = s.randCount := rfl
@[simp] theorem State.begun_loadAllowed : (s.begun).loadAllowed = false := rfl
@[simp] theorem State.begun_font : (s.begun).font = s.font := rfl
@[simp] theorem State.begun_strictLowNibble : (s.begun).strictLowNibble = s.strictLowNibble := rfl

/-! `raise` -/

@[simp] theorem State.raise_V (c : FaultCause) (a op : Word) : (s.raise c a op).V = s.V := rfl
@[simp] theorem State.raise_I (c : FaultCause) (a op : Word) : (s.raise c a op).I = s.I := rfl
@[simp] theorem State.raise_pc (c : FaultCause) (a op : Word) : (s.raise c a op).pc = a := rfl
@[simp] theorem State.raise_SP (c : FaultCause) (a op : Word) : (s.raise c a op).SP = s.SP := rfl
@[simp] theorem State.raise_stack (c : FaultCause) (a op : Word) : (s.raise c a op).stack = s.stack := rfl
@[simp] theorem State.raise_DT (c : FaultCause) (a op : Word) : (s.raise c a op).DT = s.DT := rfl
@[simp] theorem State.raise_ST (c : FaultCause) (a op : Word) : (s.raise c a op).ST = s.ST := rfl
@[simp] theorem State.raise_disp (c : FaultCause) (a op : Word) : (s.raise c a op).disp = s.disp := rfl
@[simp] theorem State.raise_dirty (c : FaultCause) (a op : Word) : (s.raise c a op).dirty = s.dirty := rfl
@[simp] theorem State.raise_key (c : FaultCause) (a op : Word) : (s.raise c a op).key = s.key := rfl
@[simp] theorem State.raise_mode (c : FaultCause) (a op : Word) : (s.raise c a op).mode = .faulted := rfl
@[simp] theorem State.raise_waitReg (c : FaultCause) (a op : Word) : (s.raise c a op).waitReg = s.waitReg := rfl
@[simp] theorem State.raise_faultCause (c : FaultCause) (a op : Word) : (s.raise c a op).faultCause = c := rfl
@[simp] theorem State.raise_faultAddr (c : FaultCause) (a op : Word) : (s.raise c a op).faultAddr = a := rfl
@[simp] theorem State.raise_faultOp (c : FaultCause) (a op : Word) : (s.raise c a op).faultOp = op := rfl
@[simp] theorem State.raise_mem (c : FaultCause) (a op : Word) : (s.raise c a op).mem = s.mem := rfl
@[simp] theorem State.raise_schedule (c : FaultCause) (a op : Word) : (s.raise c a op).schedule = s.schedule := rfl
@[simp] theorem State.raise_outputs (c : FaultCause) (a op : Word) : (s.raise c a op).outputs = s.outputs := rfl
@[simp] theorem State.raise_randCount (c : FaultCause) (a op : Word) : (s.raise c a op).randCount = s.randCount := rfl
@[simp] theorem State.raise_loadAllowed (c : FaultCause) (a op : Word) :
    (s.raise c a op).loadAllowed =
      s.loadAllowed := rfl
@[simp] theorem State.raise_font (c : FaultCause) (a op : Word) : (s.raise c a op).font = s.font := rfl
@[simp] theorem State.raise_strictLowNibble (c : FaultCause) (a op : Word) :
    (s.raise c a op).strictLowNibble = s.strictLowNibble := rfl

/-! `setKey` -/

@[simp] theorem State.setKey_V (k : KeyIndex) (p : Bool) : (s.setKey k p).V = s.V := rfl
@[simp] theorem State.setKey_I (k : KeyIndex) (p : Bool) : (s.setKey k p).I = s.I := rfl
@[simp] theorem State.setKey_pc (k : KeyIndex) (p : Bool) : (s.setKey k p).pc = s.pc := rfl
@[simp] theorem State.setKey_SP (k : KeyIndex) (p : Bool) : (s.setKey k p).SP = s.SP := rfl
@[simp] theorem State.setKey_stack (k : KeyIndex) (p : Bool) : (s.setKey k p).stack = s.stack := rfl
@[simp] theorem State.setKey_DT (k : KeyIndex) (p : Bool) : (s.setKey k p).DT = s.DT := rfl
@[simp] theorem State.setKey_ST (k : KeyIndex) (p : Bool) : (s.setKey k p).ST = s.ST := rfl
@[simp] theorem State.setKey_disp (k : KeyIndex) (p : Bool) : (s.setKey k p).disp = s.disp := rfl
@[simp] theorem State.setKey_dirty (k : KeyIndex) (p : Bool) : (s.setKey k p).dirty = s.dirty := rfl
@[simp] theorem State.setKey_key (k : KeyIndex) (p : Bool) : (s.setKey k p).key = s.key.set k p := rfl
@[simp] theorem State.setKey_mode (k : KeyIndex) (p : Bool) : (s.setKey k p).mode = s.mode := rfl
@[simp] theorem State.setKey_waitReg (k : KeyIndex) (p : Bool) : (s.setKey k p).waitReg = s.waitReg := rfl
@[simp] theorem State.setKey_faultCause (k : KeyIndex) (p : Bool) : (s.setKey k p).faultCause = s.faultCause := rfl
@[simp] theorem State.setKey_faultAddr (k : KeyIndex) (p : Bool) : (s.setKey k p).faultAddr = s.faultAddr := rfl
@[simp] theorem State.setKey_faultOp (k : KeyIndex) (p : Bool) : (s.setKey k p).faultOp = s.faultOp := rfl
@[simp] theorem State.setKey_mem (k : KeyIndex) (p : Bool) : (s.setKey k p).mem = s.mem := rfl
@[simp] theorem State.setKey_schedule (k : KeyIndex) (p : Bool) : (s.setKey k p).schedule = s.schedule := rfl
@[simp] theorem State.setKey_outputs (k : KeyIndex) (p : Bool) : (s.setKey k p).outputs = s.outputs := rfl
@[simp] theorem State.setKey_randCount (k : KeyIndex) (p : Bool) : (s.setKey k p).randCount = s.randCount := rfl
@[simp] theorem State.setKey_loadAllowed (k : KeyIndex) (p : Bool) : (s.setKey k p).loadAllowed = s.loadAllowed := rfl
@[simp] theorem State.setKey_font (k : KeyIndex) (p : Bool) : (s.setKey k p).font = s.font := rfl
@[simp] theorem State.setKey_strictLowNibble (k : KeyIndex) (p : Bool) :
    (s.setKey k p).strictLowNibble = s.strictLowNibble := rfl

/-! `wake` -/

@[simp] theorem State.wake_V (k : KeyIndex) : (s.wake k).V = s.V.set s.waitReg (BitVec.ofNat 8 k.val) := rfl
@[simp] theorem State.wake_I (k : KeyIndex) : (s.wake k).I = s.I := rfl
@[simp] theorem State.wake_pc (k : KeyIndex) : (s.wake k).pc = s.pc + 2 := rfl
@[simp] theorem State.wake_SP (k : KeyIndex) : (s.wake k).SP = s.SP := rfl
@[simp] theorem State.wake_stack (k : KeyIndex) : (s.wake k).stack = s.stack := rfl
@[simp] theorem State.wake_DT (k : KeyIndex) : (s.wake k).DT = s.DT := rfl
@[simp] theorem State.wake_ST (k : KeyIndex) : (s.wake k).ST = s.ST := rfl
@[simp] theorem State.wake_disp (k : KeyIndex) : (s.wake k).disp = s.disp := rfl
@[simp] theorem State.wake_dirty (k : KeyIndex) : (s.wake k).dirty = s.dirty := rfl
@[simp] theorem State.wake_key (k : KeyIndex) : (s.wake k).key = s.key := rfl
@[simp] theorem State.wake_mode (k : KeyIndex) : (s.wake k).mode = .normal := rfl
@[simp] theorem State.wake_waitReg (k : KeyIndex) : (s.wake k).waitReg = s.waitReg := rfl
@[simp] theorem State.wake_faultCause (k : KeyIndex) : (s.wake k).faultCause = s.faultCause := rfl
@[simp] theorem State.wake_faultAddr (k : KeyIndex) : (s.wake k).faultAddr = s.faultAddr := rfl
@[simp] theorem State.wake_faultOp (k : KeyIndex) : (s.wake k).faultOp = s.faultOp := rfl
@[simp] theorem State.wake_mem (k : KeyIndex) : (s.wake k).mem = s.mem := rfl
@[simp] theorem State.wake_schedule (k : KeyIndex) : (s.wake k).schedule = s.schedule := rfl
@[simp] theorem State.wake_outputs (k : KeyIndex) : (s.wake k).outputs = s.outputs := rfl
@[simp] theorem State.wake_randCount (k : KeyIndex) : (s.wake k).randCount = s.randCount := rfl
@[simp] theorem State.wake_loadAllowed (k : KeyIndex) : (s.wake k).loadAllowed = s.loadAllowed := rfl
@[simp] theorem State.wake_font (k : KeyIndex) : (s.wake k).font = s.font := rfl
@[simp] theorem State.wake_strictLowNibble (k : KeyIndex) : (s.wake k).strictLowNibble = s.strictLowNibble := rfl

/-! `withSprite` -/

@[simp] theorem State.withSprite_V (x y : Reg) (bs : List Byte) :
    (s.withSprite x y bs).V =
      s.V.set VF (flagByte (Canvas.drawSprite ⟨s.disp, false⟩ (s.getV x).toNat (s.getV y).toNat bs).hit) := rfl
@[simp] theorem State.withSprite_I (x y : Reg) (bs : List Byte) : (s.withSprite x y bs).I = s.I := rfl
@[simp] theorem State.withSprite_pc (x y : Reg) (bs : List Byte) : (s.withSprite x y bs).pc = s.pc := rfl
@[simp] theorem State.withSprite_SP (x y : Reg) (bs : List Byte) : (s.withSprite x y bs).SP = s.SP := rfl
@[simp] theorem State.withSprite_stack (x y : Reg) (bs : List Byte) : (s.withSprite x y bs).stack = s.stack := rfl
@[simp] theorem State.withSprite_DT (x y : Reg) (bs : List Byte) : (s.withSprite x y bs).DT = s.DT := rfl
@[simp] theorem State.withSprite_ST (x y : Reg) (bs : List Byte) : (s.withSprite x y bs).ST = s.ST := rfl
@[simp] theorem State.withSprite_disp (x y : Reg) (bs : List Byte) :
    (s.withSprite x y bs).disp =
      (Canvas.drawSprite ⟨s.disp, false⟩ (s.getV x).toNat (s.getV y).toNat bs).disp := rfl
@[simp] theorem State.withSprite_dirty (x y : Reg) (bs : List Byte) : (s.withSprite x y bs).dirty = true := rfl
@[simp] theorem State.withSprite_key (x y : Reg) (bs : List Byte) : (s.withSprite x y bs).key = s.key := rfl
@[simp] theorem State.withSprite_mode (x y : Reg) (bs : List Byte) : (s.withSprite x y bs).mode = s.mode := rfl
@[simp] theorem State.withSprite_waitReg (x y : Reg) (bs : List Byte) : (s.withSprite x y bs).waitReg = s.waitReg := rfl
@[simp] theorem State.withSprite_faultCause (x y : Reg) (bs : List Byte) :
    (s.withSprite x y bs).faultCause =
      s.faultCause := rfl
@[simp] theorem State.withSprite_faultAddr (x y : Reg) (bs : List Byte) :
    (s.withSprite x y bs).faultAddr =
      s.faultAddr := rfl
@[simp] theorem State.withSprite_faultOp (x y : Reg) (bs : List Byte) : (s.withSprite x y bs).faultOp = s.faultOp := rfl
@[simp] theorem State.withSprite_mem (x y : Reg) (bs : List Byte) : (s.withSprite x y bs).mem = s.mem := rfl
@[simp] theorem State.withSprite_schedule (x y : Reg) (bs : List Byte) :
    (s.withSprite x y bs).schedule =
      s.schedule := rfl
@[simp] theorem State.withSprite_outputs (x y : Reg) (bs : List Byte) : (s.withSprite x y bs).outputs = s.outputs := rfl
@[simp] theorem State.withSprite_randCount (x y : Reg) (bs : List Byte) :
    (s.withSprite x y bs).randCount =
      s.randCount := rfl
@[simp] theorem State.withSprite_loadAllowed (x y : Reg) (bs : List Byte) :
    (s.withSprite x y bs).loadAllowed =
      s.loadAllowed := rfl
@[simp] theorem State.withSprite_font (x y : Reg) (bs : List Byte) : (s.withSprite x y bs).font = s.font := rfl
@[simp] theorem State.withSprite_strictLowNibble (x y : Reg) (bs : List Byte) :
    (s.withSprite x y bs).strictLowNibble = s.strictLowNibble := rfl

/-! `skipIf` -/

@[simp] theorem State.skipIf_V (c : Bool) : (s.skipIf c).V = s.V := by cases c <;> rfl
@[simp] theorem State.skipIf_I (c : Bool) : (s.skipIf c).I = s.I := by cases c <;> rfl
@[simp] theorem State.skipIf_pc (c : Bool) : (s.skipIf c).pc = if c then s.pc + 2 else s.pc := by
  cases c <;> rfl
@[simp] theorem State.skipIf_SP (c : Bool) : (s.skipIf c).SP = s.SP := by cases c <;> rfl
@[simp] theorem State.skipIf_stack (c : Bool) : (s.skipIf c).stack = s.stack := by cases c <;> rfl
@[simp] theorem State.skipIf_DT (c : Bool) : (s.skipIf c).DT = s.DT := by cases c <;> rfl
@[simp] theorem State.skipIf_ST (c : Bool) : (s.skipIf c).ST = s.ST := by cases c <;> rfl
@[simp] theorem State.skipIf_disp (c : Bool) : (s.skipIf c).disp = s.disp := by cases c <;> rfl
@[simp] theorem State.skipIf_dirty (c : Bool) : (s.skipIf c).dirty = s.dirty := by cases c <;> rfl
@[simp] theorem State.skipIf_key (c : Bool) : (s.skipIf c).key = s.key := by cases c <;> rfl
@[simp] theorem State.skipIf_mode (c : Bool) : (s.skipIf c).mode = s.mode := by cases c <;> rfl
@[simp] theorem State.skipIf_waitReg (c : Bool) : (s.skipIf c).waitReg = s.waitReg := by cases c <;> rfl
@[simp] theorem State.skipIf_faultCause (c : Bool) : (s.skipIf c).faultCause = s.faultCause := by cases c <;> rfl
@[simp] theorem State.skipIf_faultAddr (c : Bool) : (s.skipIf c).faultAddr = s.faultAddr := by cases c <;> rfl
@[simp] theorem State.skipIf_faultOp (c : Bool) : (s.skipIf c).faultOp = s.faultOp := by cases c <;> rfl
@[simp] theorem State.skipIf_mem (c : Bool) : (s.skipIf c).mem = s.mem := by cases c <;> rfl
@[simp] theorem State.skipIf_schedule (c : Bool) : (s.skipIf c).schedule = s.schedule := by cases c <;> rfl
@[simp] theorem State.skipIf_outputs (c : Bool) : (s.skipIf c).outputs = s.outputs := by cases c <;> rfl
@[simp] theorem State.skipIf_randCount (c : Bool) : (s.skipIf c).randCount = s.randCount := by cases c <;> rfl
@[simp] theorem State.skipIf_loadAllowed (c : Bool) : (s.skipIf c).loadAllowed = s.loadAllowed := by cases c <;> rfl
@[simp] theorem State.skipIf_font (c : Bool) : (s.skipIf c).font = s.font := by cases c <;> rfl
@[simp] theorem State.skipIf_strictLowNibble (c : Bool) :
    (s.skipIf c).strictLowNibble = s.strictLowNibble := by cases c <;> rfl

/-! `setRegs` -/

/-- `setRegs` changes the register file only. -/
theorem State.setRegs_eq (k : Nat) (bs : List Byte) : s.setRegs k bs = { s with V := (s.setRegs k bs).V } := by
  induction bs generalizing s k with
  | nil => rfl
  | cons b bs ih => rw [State.setRegs, ih]; rfl

@[simp] theorem State.setRegs_I (k : Nat) (bs : List Byte) : (s.setRegs k bs).I = s.I := by rw [s.setRegs_eq]
@[simp] theorem State.setRegs_pc (k : Nat) (bs : List Byte) : (s.setRegs k bs).pc = s.pc := by rw [s.setRegs_eq]
@[simp] theorem State.setRegs_SP (k : Nat) (bs : List Byte) : (s.setRegs k bs).SP = s.SP := by rw [s.setRegs_eq]
@[simp] theorem State.setRegs_stack (k : Nat) (bs : List Byte) : (s.setRegs k bs).stack = s.stack := by rw [s.setRegs_eq]
@[simp] theorem State.setRegs_DT (k : Nat) (bs : List Byte) : (s.setRegs k bs).DT = s.DT := by rw [s.setRegs_eq]
@[simp] theorem State.setRegs_ST (k : Nat) (bs : List Byte) : (s.setRegs k bs).ST = s.ST := by rw [s.setRegs_eq]
@[simp] theorem State.setRegs_disp (k : Nat) (bs : List Byte) : (s.setRegs k bs).disp = s.disp := by rw [s.setRegs_eq]
@[simp] theorem State.setRegs_dirty (k : Nat) (bs : List Byte) : (s.setRegs k bs).dirty = s.dirty := by rw [s.setRegs_eq]
@[simp] theorem State.setRegs_key (k : Nat) (bs : List Byte) : (s.setRegs k bs).key = s.key := by rw [s.setRegs_eq]
@[simp] theorem State.setRegs_mode (k : Nat) (bs : List Byte) : (s.setRegs k bs).mode = s.mode := by rw [s.setRegs_eq]
@[simp] theorem State.setRegs_waitReg (k : Nat) (bs : List Byte) : (s.setRegs k bs).waitReg = s.waitReg := by rw [s.setRegs_eq]
@[simp] theorem State.setRegs_faultCause (k : Nat) (bs : List Byte) : (s.setRegs k bs).faultCause = s.faultCause := by rw [s.setRegs_eq]
@[simp] theorem State.setRegs_faultAddr (k : Nat) (bs : List Byte) : (s.setRegs k bs).faultAddr = s.faultAddr := by rw [s.setRegs_eq]
@[simp] theorem State.setRegs_faultOp (k : Nat) (bs : List Byte) : (s.setRegs k bs).faultOp = s.faultOp := by rw [s.setRegs_eq]
@[simp] theorem State.setRegs_mem (k : Nat) (bs : List Byte) : (s.setRegs k bs).mem = s.mem := by rw [s.setRegs_eq]
@[simp] theorem State.setRegs_schedule (k : Nat) (bs : List Byte) : (s.setRegs k bs).schedule = s.schedule := by rw [s.setRegs_eq]
@[simp] theorem State.setRegs_outputs (k : Nat) (bs : List Byte) : (s.setRegs k bs).outputs = s.outputs := by rw [s.setRegs_eq]
@[simp] theorem State.setRegs_randCount (k : Nat) (bs : List Byte) : (s.setRegs k bs).randCount = s.randCount := by rw [s.setRegs_eq]
@[simp] theorem State.setRegs_loadAllowed (k : Nat) (bs : List Byte) : (s.setRegs k bs).loadAllowed = s.loadAllowed := by rw [s.setRegs_eq]
@[simp] theorem State.setRegs_font (k : Nat) (bs : List Byte) : (s.setRegs k bs).font = s.font := by rw [s.setRegs_eq]
@[simp] theorem State.setRegs_strictLowNibble (k : Nat) (bs : List Byte) :
    (s.setRegs k bs).strictLowNibble = s.strictLowNibble := by rw [s.setRegs_eq]

end Updates

end Sys2Proof.Machine
end

