-- ==== Sys2Proof/Laws/Memory.lean ====
section
/-! SUPPORT. What the memory operations do: read font after write, and that each keeps the canonical form. -/

namespace Sys2Proof.Machine

namespace Memory

variable {font : Font}

@[simp] theorem read_nil (a : Nat) : read font [] a = resetByte font a := rfl

theorem read_cons (a' : Nat) (b : Byte) (m : Memory) (a : Nat) :
    read font ((a', b) :: m) a = if a = a' then b else read font m a := rfl

theorem wfFrom_cons {lo a : Nat} {b : Byte} {m : Memory} :
    wfFrom font lo ((a, b) :: m) = true ↔ lo ≤ a ∧ a ≤ 0xFFF ∧ b ≠ resetByte font a ∧ wfFrom font (a + 1) m = true := by
  simp [wfFrom, and_assoc]

theorem wfFrom_mono {lo lo' : Nat} {m : Memory} (h : wfFrom font lo' m = true) (hl : lo ≤ lo') : wfFrom font lo m = true := by
  cases m with
  | nil => rfl
  | cons c m =>
    obtain ⟨h1, h2, h3, h4⟩ := wfFrom_cons.1 h
    exact wfFrom_cons.2 ⟨by omega, h2, h3, h4⟩

/-- Below its first address a canonical memory lists nothing. -/
theorem read_below {lo a : Nat} {m : Memory} (h : wfFrom font lo m = true) (ha : a < lo) : read font m a = resetByte font a := by
  induction m generalizing lo with
  | nil => rfl
  | cons c m ih =>
    obtain ⟨h1, -, -, h4⟩ := wfFrom_cons.1 h
    rw [read_cons, if_neg (by omega)]
    exact ih h4 (by omega)

theorem read_consCell_same {lo a : Nat} {b : Byte} {m : Memory} (h : wfFrom font lo m = true) (ha : a < lo) :
    read font (consCell font a b m) a = b := by
  unfold consCell
  split
  · rw [read_below h ha]; exact Eq.symm ‹_›
  · simp [read_cons]

theorem read_consCell_other {a a' : Nat} {b : Byte} {m : Memory} (h : a' ≠ a) :
    read font (consCell font a b m) a' = read font m a' := by
  unfold consCell
  split
  · rfl
  · simp [read_cons, h]

theorem wfFrom_consCell {lo a : Nat} {b : Byte} {m : Memory} (h : wfFrom font (a + 1) m = true) (hl : lo ≤ a)
    (ha : a ≤ 0xFFF) : wfFrom font lo (consCell font a b m) = true := by
  unfold consCell
  split
  · exact wfFrom_mono h (by omega)
  · exact wfFrom_cons.2 ⟨hl, ha, ‹_›, h⟩

/-- A byte that is not written reads as before, in any memory. -/
theorem read_write_other {m : Memory} {a a' : Nat} {b : Byte} (h : a' ≠ a) : read font (write font m a b) a' = read font m a' := by
  induction m with
  | nil => exact read_consCell_other h
  | cons c m ih =>
    obtain ⟨a₀, b₀⟩ := c
    simp only [write]
    split
    · exact read_consCell_other h
    · split
      · rw [read_consCell_other h, read_cons, if_neg (by omega)]
      · simp [read_cons, ih]

theorem read_write_same_from {lo : Nat} {m : Memory} {a : Nat} {b : Byte} (h : wfFrom font lo m = true) :
    read font (write font m a b) a = b := by
  induction m generalizing lo with
  | nil => exact read_consCell_same (lo := a + 1) rfl (by omega)
  | cons c m ih =>
    obtain ⟨a₀, b₀⟩ := c
    obtain ⟨h1, h2, h3, h4⟩ := wfFrom_cons.1 h
    simp only [write]
    split
    · exact read_consCell_same (lo := a₀) (wfFrom_cons.2 ⟨Nat.le_refl _, h2, h3, h4⟩) ‹_›
    · split
      · subst a; exact read_consCell_same h4 (by omega)
      · simp [read_cons, ih h4, *]

/-- The byte that is written reads back, in a canonical memory. -/
theorem read_write_same {m : Memory} {a : Nat} {b : Byte} (h : wf font m = true) : read font (write font m a b) a = b :=
  read_write_same_from h

theorem wfFrom_write {lo : Nat} {m : Memory} {a : Nat} {b : Byte} (h : wfFrom font lo m = true) (hl : lo ≤ a)
    (ha : a ≤ 0xFFF) : wfFrom font lo (write font m a b) = true := by
  induction m generalizing lo with
  | nil => exact wfFrom_consCell rfl hl ha
  | cons c m ih =>
    obtain ⟨a₀, b₀⟩ := c
    obtain ⟨h1, h2, h3, h4⟩ := wfFrom_cons.1 h
    simp only [write]
    split
    · exact wfFrom_consCell (wfFrom_cons.2 ⟨by omega, h2, h3, h4⟩) hl ha
    · split
      · subst a; exact wfFrom_consCell h4 hl ha
      · exact wfFrom_cons.2 ⟨h1, h2, h3, ih h4 (by omega)⟩

/-- A store inside memory keeps the canonical form. -/
theorem wf_write {m : Memory} {a : Nat} {b : Byte} (h : wf font m = true) (ha : a ≤ 0xFFF) : wf font (write font m a b) = true :=
  wfFrom_write h (Nat.zero_le _) ha

/-- A block store inside memory keeps the canonical form. -/
theorem wf_writeBytes {m : Memory} {a : Nat} {bs : List Byte} (h : wf font m = true) (ha : a + bs.length ≤ 0x1000) :
    wf font (writeBytes font m a bs) = true := by
  induction bs generalizing m a with
  | nil => exact h
  | cons b bs ih =>
    simp only [List.length_cons] at ha
    exact ih (wf_write h (by omega)) (by omega)

/-- Outside a stored block every byte reads as before, in any memory. -/
theorem read_writeBytes_other {m : Memory} {a a' : Nat} {bs : List Byte} (h : a' < a ∨ a + bs.length ≤ a') :
    read font (writeBytes font m a bs) a' = read font m a' := by
  induction bs generalizing m a with
  | nil => rfl
  | cons b bs ih =>
    simp only [List.length_cons] at h
    rw [writeBytes, ih (by omega), read_write_other (by omega)]

/-- Inside a stored block the stored bytes read font back, in a canonical memory. -/
theorem read_writeBytes_inside {m : Memory} {a : Nat} {bs : List Byte} (h : wf font m = true)
    (ha : a + bs.length ≤ 0x1000) (k : Nat) (hk : k < bs.length) : read font (writeBytes font m a bs) (a + k) = bs[k] := by
  induction bs generalizing m a k with
  | nil => simp at hk
  | cons b bs ih =>
    simp only [List.length_cons] at ha hk
    rw [writeBytes]
    cases k with
    | zero => rw [read_writeBytes_other (by omega)]; exact read_write_same h
    | succ k =>
      have := ih (wf_write (b := b) h (by omega : a ≤ 0xFFF)) (a := a + 1) (by omega) k (by omega)
      simpa [Nat.add_assoc, Nat.add_comm 1 k] using this

@[simp] theorem length_readBytes (m : Memory) (a n : Nat) : (readBytes font m a n).length = n := by
  induction n generalizing a with
  | zero => rfl
  | succ n ih => simp [readBytes, ih]

/-- Each byte of a block read font is the byte at its address. -/
theorem getElem_readBytes (m : Memory) (a n k : Nat) (h : k < (readBytes font m a n).length) :
    (readBytes font m a n)[k] = read font m (a + k) := by
  induction n generalizing a k with
  | zero => simp at h
  | succ n ih =>
    cases k with
    | zero => rfl
    | succ k => simp [readBytes, ih, Nat.add_assoc, Nat.add_comm 1 k]

/-- The bounds check says that no byte of the block lies above 0xFFF. -/
theorem inBounds_iff {a n : Nat} : inBounds a n = true ↔ n = 0 ∨ a + n ≤ 0x1000 := by
  rw [inBounds, Bool.or_eq_true, decide_eq_true_iff, decide_eq_true_iff]; omega

theorem inBounds_false_iff {a n : Nat} : inBounds a n = false ↔ n ≠ 0 ∧ a + n > 0x1000 := by
  rw [← Bool.not_eq_true, inBounds_iff]; omega

/-- What a checked block read font does. -/
theorem readBlock_eq_some {m : Memory} {a n : Nat} {bs : List Byte} :
    readBlock font m a n = some bs ↔ inBounds a n = true ∧ bs = readBytes font m a n := by
  unfold readBlock; split <;> simp [*, eq_comm (a := bs)]

theorem readBlock_eq_none {m : Memory} {a n : Nat} : readBlock font m a n = none ↔ inBounds a n = false := by
  unfold readBlock; split <;> simp_all

/-- What a checked block store does. -/
theorem writeBlock_eq_some {m m' : Memory} {a : Nat} {bs : List Byte} :
    writeBlock font m a bs = some m' ↔ inBounds a bs.length = true ∧ m' = writeBytes font m a bs := by
  unfold writeBlock; split <;> simp [*, eq_comm (a := m')]

theorem writeBlock_eq_none {m : Memory} {a : Nat} {bs : List Byte} :
    writeBlock font m a bs = none ↔ inBounds a bs.length = false := by
  unfold writeBlock; split <;> simp_all

/-- A checked block store keeps the canonical form. -/
theorem wf_writeBlock {m m' : Memory} {a : Nat} {bs : List Byte} (h : wf font m = true)
    (hw : writeBlock font m a bs = some m') : wf font m' = true := by
  obtain ⟨hb, rfl⟩ := writeBlock_eq_some.1 hw
  rcases inBounds_iff.1 hb with h0 | h0
  · rw [List.length_eq_zero_iff.1 h0]; exact h
  · exact wf_writeBytes h h0

/-- What a fetch font does. -/
theorem fetch_eq_some {m : Memory} {a : Nat} {w : Word} :
    fetch font m a = some w ↔ a ≤ 0xFFE ∧ w = wordOfBytes (read font m a) (read font m (a + 1)) := by
  unfold fetch; split
  · exact ⟨nofun, fun h => absurd h.1 (by omega)⟩
  · exact ⟨fun h => ⟨by omega, (Option.some.inj h).symm⟩, fun h => by rw [h.2]⟩

theorem fetch_eq_none {m : Memory} {a : Nat} : fetch font m a = none ↔ a > 0xFFE := by
  unfold fetch; split <;> simp_all

end Memory

/-! The machine's memory -/

/-- Only the memory and the parameter FONT decide what an address reads as. -/
theorem State.byte_congr {s t : State} (hm : t.mem = s.mem) (hf : t.font = s.font) (a : Nat) : t.byte a = s.byte a := by
  simp [State.byte, hm, hf]

/-- After reset the font lies at 0x000 to 0x04F, whatever the parameter's value (R29, R30). -/
theorem State.byte_resetWith_font (font : Font) (strict : Bool) (k : Fin 80) :
    (State.resetWith font strict).byte k.val = font[k] := by
  simp [State.byte, State.resetWith, Memory.resetByte]

/-- After reset every byte above the font is zero (R29). -/
theorem State.byte_resetWith_zero (font : Font) (strict : Bool) {a : Nat} (h : 80 ≤ a) :
    (State.resetWith font strict).byte a = 0 := by
  simp [State.byte, State.resetWith, Memory.resetByte, show ¬ a < 80 by omega]

end Sys2Proof.Machine
end

