-- ==== Sys2Proof/Laws/Ops.lean ====
section
/-! SUPPORT. One lemma per shared operation over registers, stack, display and fault record, saying all it can do. -/

namespace Sys2Proof.Machine

/-! General registers -/

/-- A register reads as it was last written. -/
theorem State.getV_setV (s : State) (x r : Reg) (b : Byte) : (s.setV x b).getV r = if r = x then b else s.getV r := by
  simp only [State.getV, State.setV, Fin.getElem_fin, Vector.getElem_set, Fin.ext_iff]
  simp only [eq_comm]

@[simp] theorem State.getV_setV_same (s : State) (x : Reg) (b : Byte) : (s.setV x b).getV x = b := by
  simp [State.getV_setV]

theorem State.getV_setV_other (s : State) {x r : Reg} (b : Byte) (h : r ≠ x) : (s.setV x b).getV r = s.getV r := by
  simp [State.getV_setV, h]

/-- Only the register file decides what a register reads as. -/
theorem State.getV_congr {s t : State} (h : t.V = s.V) (r : Reg) : t.getV r = s.getV r := by
  simp [State.getV, h]

@[simp] theorem State.getV_skipIf (s : State) (c : Bool) (r : Reg) : (s.skipIf c).getV r = s.getV r :=
  State.getV_congr (by simp) r

/-- The result and the flag: `VF` ends as the flag, the destination as the result unless it is `VF` (R13). -/
theorem State.getV_setResultFlag (s : State) (x r : Reg) (b : Byte) (f : Bool) :
    (s.setResultFlag x b f).getV r = if r = VF then flagByte f else if r = x then b else s.getV r := by
  simp [State.setResultFlag, State.getV_setV]

/-- `setRegs` writes the listed bytes to consecutive registers and leaves the others. -/
theorem State.getV_setRegs (s : State) (k : Nat) (bs : List Byte) (h : k + bs.length ≤ 16) (r : Reg) :
    (s.setRegs k bs).getV r =
      if hr : k ≤ r.val ∧ r.val < k + bs.length then bs[r.val - k]'(by omega) else s.getV r := by
  induction bs generalizing s k with
  | nil => simp [State.setRegs]
  | cons b bs ih =>
    simp only [List.length_cons] at h
    rw [State.setRegs, ih _ _ (by omega), State.getV_setV]
    have hk : (Fin.ofNat 16 k).val = k := Nat.mod_eq_of_lt (by omega)
    simp only [Fin.ext_iff, hk, List.length_cons]
    by_cases h1 : r.val = k
    · rw [dif_neg (by omega), dif_pos (by omega)]; simp [h1]
    · by_cases h2 : k + 1 ≤ r.val ∧ r.val < k + 1 + bs.length
      · rw [dif_pos h2, dif_pos (by omega)]
        obtain ⟨j, hj⟩ : ∃ j, r.val = k + 1 + j := ⟨r.val - (k + 1), by omega⟩
        have e1 : r.val - (k + 1) = j := by omega
        have e2 : r.val - k = j + 1 := by omega
        simp [e1, e2]
      · rw [dif_neg h2, if_neg h1, dif_neg (by omega)]

/-- The block `V[0]` to `V[x]` has `x + 1` bytes. -/
@[simp] theorem State.length_regBlock (s : State) (x : Reg) : (s.regBlock x).length = x.val + 1 := by
  simp [State.regBlock]

/-- The `k`-th byte of the block is `V[k]`. -/
theorem State.getElem_regBlock (s : State) (x : Reg) (k : Nat) (h : k < (s.regBlock x).length) :
    (s.regBlock x)[k] = s.getV ⟨k, by simp at h; omega⟩ := by
  simp [State.regBlock, State.getV]

/-! Call stack -/

/-- A push that succeeds. -/
theorem State.push_eq_some {s t : State} {a : Word} :
    s.push a = some t ↔ ∃ _h : s.SP.val < 16, t = { s with stack := s.stack.set s.SP.val a, SP := ⟨s.SP.val + 1, by omega⟩ } := by
  unfold State.push
  split
  · exact ⟨fun h => ⟨‹_›, (Option.some.inj h).symm⟩, fun ⟨_, h⟩ => by rw [h]⟩
  · exact ⟨nofun, fun ⟨h, _⟩ => absurd h ‹_›⟩

/-- A push fails exactly when the stack is full (R19, R82). -/
theorem State.push_eq_none {s : State} {a : Word} : s.push a = none ↔ s.SP.val = 16 := by
  have := s.SP.isLt
  unfold State.push
  split <;> simp <;> omega

/-- A pop that succeeds. -/
theorem State.pop_eq_some {s t : State} {a : Word} :
    s.pop = some (a, t) ↔ ∃ _h : s.SP.val ≠ 0, a = s.stack[s.SP.val - 1]'(by omega) ∧
      t = { s with SP := ⟨s.SP.val - 1, by omega⟩ } := by
  unfold State.pop
  split
  · exact ⟨nofun, fun ⟨h, _⟩ => absurd ‹_› h⟩
  · refine ⟨fun h => ⟨‹_›, ?_⟩, fun ⟨_, h1, h2⟩ => by rw [h1, h2]⟩
    simp only [Option.some.injEq, Prod.mk.injEq] at h
    exact ⟨h.1.symm, h.2.symm⟩

/-- A pop fails exactly when the stack is empty (R19, R83). -/
theorem State.pop_eq_none {s : State} : s.pop = none ↔ s.SP.val = 0 := by
  unfold State.pop
  split <;> simp [*]

/-! Display -/

/-- Toggling a pixel changes that pixel and no other. -/
theorem Display.pixel_toggle (d : Display) (x x' : Fin 64) (y y' : Fin 32) :
    (d.toggle x y).pixel x' y' = (d.pixel x' y' ^^ decide (x' = x ∧ y' = y)) := by
  simp only [Display.pixel, Display.toggle, Fin.getElem_fin, Vector.getElem_set, Fin.ext_iff]
  by_cases hy : y.val = y'.val
  · by_cases hx : x.val = x'.val
    · simp [hx, hy]
    · simp [hy, hx, Ne.symm hx]
  · simp [hy, Ne.symm hy]

/-- A cleared display has every pixel off. -/
@[simp] theorem Display.pixel_clear (x : Fin 64) (y : Fin 32) : Display.clear.pixel x y = false := by
  simp [Display.clear, Display.pixel]

/-- Two displays with the same pixels are the same. -/
theorem Display.ext_pixel {d e : Display} (h : ∀ x y, d.pixel x y = e.pixel x y) : d = e := by
  apply Vector.ext
  intro y hy
  apply Vector.ext
  intro x hx
  exact h ⟨x, hx⟩ ⟨y, hy⟩

/-- Some listed bit that is 1 falls on the pixel, the row starting at column `x` of row `y`. -/
def RowHits (bits : List Bool) (x y : Nat) (px : Fin 64) (py : Fin 32) : Prop :=
  ∃ k, ∃ h : k < bits.length, bits[k] = true ∧ (x + k) % 64 = px.val ∧ y % 32 = py.val

theorem rowHits_nil (x y : Nat) (px : Fin 64) (py : Fin 32) : ¬ RowHits [] x y px py := by
  rintro ⟨k, h, -⟩; simp at h

theorem rowHits_cons (b : Bool) (bits : List Bool) (x y : Nat) (px : Fin 64) (py : Fin 32) :
    RowHits (b :: bits) x y px py ↔
      (b = true ∧ x % 64 = px.val ∧ y % 32 = py.val) ∨ RowHits bits (x + 1) y px py := by
  constructor
  · rintro ⟨k, h, h1, h2, h3⟩
    cases k with
    | zero => exact .inl ⟨h1, h2, h3⟩
    | succ k => exact .inr ⟨k, by simpa using h, by simpa using h1, by rw [← h2]; congr 1; omega, h3⟩
  · rintro (⟨h1, h2, h3⟩ | ⟨k, h, h1, h2, h3⟩)
    · exact ⟨0, by simp, h1, h2, h3⟩
    · exact ⟨k + 1, by simpa using h, by simpa using h1, by rw [← h2]; congr 1; omega, h3⟩

/-- A row of at most 64 bits toggles exactly the pixels its 1-bits fall on. -/
theorem Canvas.pixel_drawRow (c : Canvas) (x y : Nat) (bits : List Bool) (hl : bits.length ≤ 64)
    (px : Fin 64) (py : Fin 32) :
    (c.drawRow x y bits).disp.pixel px py = true ↔ ¬ (c.disp.pixel px py = true ↔ RowHits bits x y px py) := by
  induction bits generalizing c x with
  | nil => simp [Canvas.drawRow, rowHits_nil]
  | cons b bits ih =>
    simp only [List.length_cons] at hl
    rw [Canvas.drawRow, ih _ _ (by omega), rowHits_cons]
    cases b with
    | false => simp
    | true =>
      have hdis : x % 64 = px.val → ¬ RowHits bits (x + 1) y px py := by
        rintro h1 ⟨k, h, -, h2, -⟩; omega
      simp only [if_true, Canvas.plot, Display.pixel_toggle, Fin.ext_iff, Fin.val_ofNat]
      by_cases h1 : x % 64 = px.val ∧ y % 32 = py.val
      · simp [h1.1, h1.2, hdis h1.1]
      · have h2 : ¬ (px.val = x % 64 ∧ py.val = y % 32) := by omega
        simp [h1, h2]

/-- A row of at most 64 bits collides when one of its 1-bits falls on a pixel that was on. -/
theorem Canvas.hit_drawRow (c : Canvas) (x y : Nat) (bits : List Bool) (hl : bits.length ≤ 64) :
    (c.drawRow x y bits).hit = true ↔
      c.hit = true ∨ ∃ px py, RowHits bits x y px py ∧ c.disp.pixel px py = true := by
  induction bits generalizing c x with
  | nil => simp [Canvas.drawRow, rowHits_nil]
  | cons b bits ih =>
    simp only [List.length_cons] at hl
    rw [Canvas.drawRow, ih _ _ (by omega)]
    cases b with
    | false => simp [rowHits_cons]
    | true =>
      have hpix : ∀ px py, RowHits bits (x + 1) y px py →
          (c.plot x y).disp.pixel px py = c.disp.pixel px py := by
        rintro px py ⟨k, h, -, h2, -⟩
        have : ¬ (px.val = x % 64 ∧ py.val = y % 32) := by omega
        simp [Canvas.plot, Display.pixel_toggle, Fin.ext_iff, this]
      simp only [if_true, Canvas.plot, Bool.or_eq_true] at hpix ⊢
      constructor
      · rintro ((h | h) | ⟨px, py, h, hp⟩)
        · exact .inl h
        · exact .inr ⟨_, _, (rowHits_cons ..).2 (.inl ⟨rfl, rfl, rfl⟩), h⟩
        · exact .inr ⟨px, py, (rowHits_cons ..).2 (.inr h), by rw [← hpix px py h]; exact hp⟩
      · rintro (h | ⟨px, py, h, hp⟩)
        · exact .inl (.inl h)
        · rcases (rowHits_cons ..).1 h with ⟨-, h1, h2⟩ | h
          · have e1 : Fin.ofNat 64 x = px := Fin.ext h1
            have e2 : Fin.ofNat 32 y = py := Fin.ext h2
            exact .inl (.inr (by rw [e1, e2]; exact hp))
          · exact .inr ⟨px, py, h, by rw [hpix px py h]; exact hp⟩

@[simp] theorem length_spriteBits (b : Byte) : (spriteBits b).length = 8 := rfl

/-- Bit `c` of a sprite row from the left is bit `7 - c` of its byte (R130). -/
theorem getElem_spriteBits (b : Byte) (c : Nat) (h : c < (spriteBits b).length) :
    (spriteBits b)[c] = b.getLsbD (7 - c) := by
  simp only [length_spriteBits] at h
  interval_cases c <;> rfl

/-- Some 1-bit of the sprite falls on the pixel, the sprite's top left corner at column `x`, row `y` (R132). -/
def SpriteHits (sprite : List Byte) (x y : Nat) (px : Fin 64) (py : Fin 32) : Prop :=
  ∃ r, ∃ h : r < sprite.length, ∃ c < 8, sprite[r].getLsbD (7 - c) = true ∧
    (x + c) % 64 = px.val ∧ (y + r) % 32 = py.val

theorem rowHits_spriteBits (b : Byte) (x y : Nat) (px : Fin 64) (py : Fin 32) :
    RowHits (spriteBits b) x y px py ↔
      ∃ c < 8, b.getLsbD (7 - c) = true ∧ (x + c) % 64 = px.val ∧ y % 32 = py.val := by
  constructor
  · rintro ⟨k, h, h1, h2⟩
    exact ⟨k, by simpa using h, by rw [getElem_spriteBits] at h1; exact h1, h2⟩
  · rintro ⟨k, h, h1, h2⟩
    exact ⟨k, by simpa using h, by rw [getElem_spriteBits]; exact h1, h2⟩

theorem spriteHits_nil (x y : Nat) (px : Fin 64) (py : Fin 32) : ¬ SpriteHits [] x y px py := by
  rintro ⟨r, h, -⟩; simp at h

theorem spriteHits_cons (b : Byte) (bs : List Byte) (x y : Nat) (px : Fin 64) (py : Fin 32) :
    SpriteHits (b :: bs) x y px py ↔ RowHits (spriteBits b) x y px py ∨ SpriteHits bs x (y + 1) px py := by
  rw [rowHits_spriteBits]
  constructor
  · rintro ⟨r, h, c, hc, h1, h2, h3⟩
    cases r with
    | zero => exact .inl ⟨c, hc, h1, h2, h3⟩
    | succ r => exact .inr ⟨r, by simpa using h, c, hc, by simpa using h1, h2, by rw [← h3]; congr 1; omega⟩
  · rintro (⟨c, hc, h1, h2, h3⟩ | ⟨r, h, c, hc, h1, h2, h3⟩)
    · exact ⟨0, by simp, c, hc, h1, h2, h3⟩
    · exact ⟨r + 1, by simpa using h, c, hc, by simpa using h1, h2, by rw [← h3]; congr 1; omega⟩

/-- The rows of a sprite of at most 32 rows do not meet. -/
theorem not_spriteHits_of_row {b : Byte} {bs : List Byte} {x y : Nat} {px : Fin 64} {py : Fin 32}
    (hl : bs.length + 1 ≤ 32) (h : RowHits (spriteBits b) x y px py) : ¬ SpriteHits bs x (y + 1) px py := by
  rintro ⟨r, hr, c, -, -, -, h3⟩
  obtain ⟨k, -, -, -, h4⟩ := h
  omega

/-- A draw of at most 32 rows toggles exactly the pixels its 1-bits fall on (R132). -/
theorem Canvas.pixel_drawSprite (c : Canvas) (x y : Nat) (sprite : List Byte) (hl : sprite.length ≤ 32)
    (px : Fin 64) (py : Fin 32) :
    (c.drawSprite x y sprite).disp.pixel px py = true ↔
      ¬ (c.disp.pixel px py = true ↔ SpriteHits sprite x y px py) := by
  induction sprite generalizing c y with
  | nil => simp [Canvas.drawSprite, spriteHits_nil]
  | cons b bs ih =>
    simp only [List.length_cons] at hl
    rw [Canvas.drawSprite, ih _ _ (by omega), Canvas.pixel_drawRow _ _ _ _ (by simp), spriteHits_cons]
    have := fun h => not_spriteHits_of_row (px := px) (py := py) (x := x) (y := y) (b := b) hl h
    tauto

/-- A draw of at most 32 rows collides when one of its 1-bits falls on a pixel that was on (R132). -/
theorem Canvas.hit_drawSprite (c : Canvas) (x y : Nat) (sprite : List Byte) (hl : sprite.length ≤ 32) :
    (c.drawSprite x y sprite).hit = true ↔
      c.hit = true ∨ ∃ px py, SpriteHits sprite x y px py ∧ c.disp.pixel px py = true := by
  induction sprite generalizing c y with
  | nil => simp [Canvas.drawSprite, spriteHits_nil]
  | cons b bs ih =>
    simp only [List.length_cons] at hl
    rw [Canvas.drawSprite, ih _ _ (by omega), Canvas.hit_drawRow _ _ _ _ (by simp)]
    have hpix : ∀ px py, SpriteHits bs x (y + 1) px py →
        ((c.drawRow x y (spriteBits b)).disp.pixel px py = true ↔ c.disp.pixel px py = true) := by
      intro px py h
      rw [Canvas.pixel_drawRow _ _ _ _ (by simp)]
      have : ¬ RowHits (spriteBits b) x y px py := fun h' => not_spriteHits_of_row hl h' h
      tauto
    constructor
    · rintro ((h | ⟨px, py, h, hp⟩) | ⟨px, py, h, hp⟩)
      · exact .inl h
      · exact .inr ⟨px, py, (spriteHits_cons ..).2 (.inl h), hp⟩
      · exact .inr ⟨px, py, (spriteHits_cons ..).2 (.inr h), (hpix px py h).1 hp⟩
    · rintro (h | ⟨px, py, h, hp⟩)
      · exact .inl (.inl h)
      · rcases (spriteHits_cons ..).1 h with h | h
        · exact .inl (.inr ⟨px, py, h, hp⟩)
        · exact .inr ⟨px, py, h, (hpix px py h).2 hp⟩

/-- After a draw `VF` is the collision flag, and every other register reads as before (R132). -/
theorem State.getV_withSprite (s : State) (x y r : Reg) (bs : List Byte) :
    (s.withSprite x y bs).getV r =
      if r = VF then flagByte (Canvas.drawSprite ⟨s.disp, false⟩ (s.getV x).toNat (s.getV y).toNat bs).hit
      else s.getV r := by
  rw [← State.getV_setV]
  exact State.getV_congr rfl r

/-! Operand forms as numbers -/

/-- A zero-extended address keeps its value (R62). -/
@[simp] theorem toNat_zextAddr (nnn : Addr) : (zextAddr nnn).toNat = nnn.toNat := by
  have := nnn.isLt
  simp [zextAddr]; omega

/-- A zero-extended byte keeps its value (R62). -/
@[simp] theorem toNat_zextByte (b : Byte) : (zextByte b).toNat = b.toNat := by
  have := b.isLt
  simp [zextByte]; omega

/-- The address of an instruction that was fetched inside memory: the advance does not wrap there (R14, R80). -/
theorem State.toNat_instrAddr {s : State} (h : 2 ≤ s.pc.toNat) : s.instrAddr.toNat = s.pc.toNat - 2 := by
  have := s.pc.isLt
  rw [State.instrAddr, BitVec.toNat_sub]
  simp; omega

/-! Fault record, key index, program counter -/

/-- A key index is found exactly for register values 0 to 15 (R148). -/
theorem keyIndex?_eq_some {v : Byte} {k : KeyIndex} : keyIndex? v = some k ↔ v.toNat = k.val := by
  unfold keyIndex?
  split
  · simp [Fin.ext_iff]
  · simp; omega

theorem keyIndex?_eq_none {v : Byte} : keyIndex? v = none ↔ v.toNat > 15 := by
  unfold keyIndex?
  split <;> simp <;> omega

/-- During execution the instruction's address is the one it was fetched from (R14, R80). -/
@[simp] theorem State.instrAddr_advance (s : State) : s.advance.instrAddr = s.pc := by
  simp [State.instrAddr]

/-- A counter one tick later, as a number: down by 1, clamped at 0 (R143). -/
theorem toNat_countDown (c : Byte) : (countDown c).toNat = c.toNat - 1 := by
  unfold countDown
  split
  · simp [*]
  · rename_i h
    have : c.toNat ≠ 0 := fun h0 => h (BitVec.eq_of_toNat_eq h0)
    have hc : c.toNat < 256 := c.isLt
    rw [BitVec.toNat_sub]
    simp
    omega

/-- A run splits where its list of events splits. -/
theorem runEvents_append (es fs : List Event) (s : State) :
    runEvents (es ++ fs) s =
      match runEvents es s with
      | .next t => runEvents fs t
      | .fault r => .fault r
      | .refused r => .refused r := by
  induction es generalizing s with
  | nil => rfl
  | cons e es ih =>
    simp only [List.cons_append, runEvents]
    cases transition e s with
    | next t => exact ih t
    | fault r => rfl
    | refused r => rfl

end Sys2Proof.Machine
end

