-- ==== Sys2Proof/Laws/Exec.lean ====
section
/-! SUPPORT. What each instruction that can fault answers, in both cases, so that no proof unfolds its bounds check, push,
pop or key lookup again; and that the parts of the state a transition does not look at do not matter to it. -/

namespace Sys2Proof.Machine

/-- CALL with room on the stack. -/
theorem execCall_of_room {nnn : Addr} {s : State} (h : s.SP.val < 16) :
    execCall nnn s = .next { s with stack := s.stack.set s.SP.val s.pc, SP := ⟨s.SP.val + 1, by omega⟩, pc := zextAddr nnn } := by
  simp [execCall, State.push_eq_some.2 ⟨h, rfl⟩, State.jump]

/-- CALL on a full stack. -/
theorem execCall_of_full {nnn : Addr} {s : State} (h : s.SP.val = 16) :
    execCall nnn s = raiseIn .stackOverflow (.call nnn) s := by
  simp [execCall, State.push_eq_none.2 h]

/-- RET with a return address on the stack. -/
theorem execRet_of_nonempty {s : State} (h : s.SP.val ≠ 0) :
    execRet s = .next { s with SP := ⟨s.SP.val - 1, by omega⟩, pc := s.stack[s.SP.val - 1]'(by omega) } := by
  simp [execRet, State.pop_eq_some.2 ⟨h, rfl, rfl⟩, State.jump]

/-- RET on an empty stack. -/
theorem execRet_of_empty {s : State} (h : s.SP.val = 0) : execRet s = raiseIn .stackUnderflow .ret s := by
  simp [execRet, State.pop_eq_none.2 h]

/-- BCD decompose inside memory. -/
theorem execLdB_of_inside {x : Reg} {s : State} (h : s.I.toNat + 2 ≤ 0xFFF) :
    execLdB x s = .next { s with mem := Memory.writeBytes s.font s.mem s.I.toNat (bcdDigits (s.getV x)) } := by
  have : Memory.writeBlock s.font s.mem s.base (bcdDigits (s.getV x)) =
      some (Memory.writeBytes s.font s.mem s.I.toNat (bcdDigits (s.getV x))) :=
    Memory.writeBlock_eq_some.2 ⟨Memory.inBounds_iff.2 (.inr (by simp [State.base, bcdDigits]; omega)), rfl⟩
  simp [execLdB, this]

/-- BCD decompose past the end of memory. -/
theorem execLdB_of_outside {x : Reg} {s : State} (h : s.I.toNat + 2 > 0xFFF) :
    execLdB x s = raiseIn .dataAddress (.ldB x) s := by
  have : Memory.writeBlock s.font s.mem s.base (bcdDigits (s.getV x)) = none :=
    Memory.writeBlock_eq_none.2 (Memory.inBounds_false_iff.2 ⟨by simp [bcdDigits], by simp [State.base, bcdDigits]; omega⟩)
  simp [execLdB, this]

/-- Block store inside memory. -/
theorem execStoreRegs_of_inside {x : Reg} {s : State} (h : s.I.toNat + x.val ≤ 0xFFF) :
    execStoreRegs x s = .next { s with mem := Memory.writeBytes s.font s.mem s.I.toNat (s.regBlock x) } := by
  have : Memory.writeBlock s.font s.mem s.base (s.regBlock x) = some (Memory.writeBytes s.font s.mem s.I.toNat (s.regBlock x)) :=
    Memory.writeBlock_eq_some.2 ⟨Memory.inBounds_iff.2 (.inr (by simp [State.base]; omega)), rfl⟩
  simp [execStoreRegs, this]

/-- Block store past the end of memory. -/
theorem execStoreRegs_of_outside {x : Reg} {s : State} (h : s.I.toNat + x.val > 0xFFF) :
    execStoreRegs x s = raiseIn .dataAddress (.storeRegs x) s := by
  have : Memory.writeBlock s.font s.mem s.base (s.regBlock x) = none :=
    Memory.writeBlock_eq_none.2 (Memory.inBounds_false_iff.2 ⟨by simp, by simp [State.base]; omega⟩)
  simp [execStoreRegs, this]

/-- Block load inside memory. -/
theorem execLoadRegs_of_inside {x : Reg} {s : State} (h : s.I.toNat + x.val ≤ 0xFFF) :
    execLoadRegs x s = .next (s.setRegs 0 (Memory.readBytes s.font s.mem s.I.toNat (x.val + 1))) := by
  have : Memory.readBlock s.font s.mem s.base (x.val + 1) = some (Memory.readBytes s.font s.mem s.I.toNat (x.val + 1)) :=
    Memory.readBlock_eq_some.2 ⟨Memory.inBounds_iff.2 (.inr (by simp [State.base]; omega)), rfl⟩
  simp [execLoadRegs, this]

/-- Block load past the end of memory. -/
theorem execLoadRegs_of_outside {x : Reg} {s : State} (h : s.I.toNat + x.val > 0xFFF) :
    execLoadRegs x s = raiseIn .dataAddress (.loadRegs x) s := by
  have : Memory.readBlock s.font s.mem s.base (x.val + 1) = none :=
    Memory.readBlock_eq_none.2 (Memory.inBounds_false_iff.2 ⟨by omega, by simp [State.base]; omega⟩)
  simp [execLoadRegs, this]

/-- A draw whose bytes lie inside memory, or of no row. -/
theorem execDrw_of_inside {x y : Reg} {n : Nibble} {s : State} (h : n.toNat = 0 ∨ s.I.toNat + n.toNat ≤ 0x1000) :
    execDrw x y n s = .next (s.withSprite x y (Memory.readBytes s.font s.mem s.I.toNat n.toNat)) := by
  have : Memory.readBlock s.font s.mem s.base n.toNat = some (Memory.readBytes s.font s.mem s.I.toNat n.toNat) :=
    Memory.readBlock_eq_some.2 ⟨Memory.inBounds_iff.2 h, rfl⟩
  simp [execDrw, this]

/-- A draw whose last byte lies past the end of memory. -/
theorem execDrw_of_outside {x y : Reg} {n : Nibble} {s : State} (h : n.toNat ≠ 0 ∧ s.I.toNat + n.toNat > 0x1000) :
    execDrw x y n s = raiseIn .dataAddress (.drw x y n) s := by
  have : Memory.readBlock s.font s.mem s.base n.toNat = none := Memory.readBlock_eq_none.2 (Memory.inBounds_false_iff.2 h)
  simp [execDrw, this]

/-- The key skips with a key index. -/
theorem execSkp_of_key {x : Reg} {s : State} {k : KeyIndex} (h : (s.getV x).toNat = k.val) :
    execSkp x s = .next (s.skipIf s.key[k]) := by
  simp [execSkp, keyIndex?_eq_some.2 h]

theorem execSknp_of_key {x : Reg} {s : State} {k : KeyIndex} (h : (s.getV x).toNat = k.val) :
    execSknp x s = .next (s.skipIf (!s.key[k])) := by
  simp [execSknp, keyIndex?_eq_some.2 h]

/-- The key skips with a value above 15. -/
theorem execSkp_of_large {x : Reg} {s : State} (h : (s.getV x).toNat > 15) : execSkp x s = raiseIn .keyIndex (.skp x) s := by
  simp [execSkp, keyIndex?_eq_none.2 h]

theorem execSknp_of_large {x : Reg} {s : State} (h : (s.getV x).toNat > 15) : execSknp x s = raiseIn .keyIndex (.sknp x) s := by
  simp [execSknp, keyIndex?_eq_none.2 h]

/-- A skip, as the value of `pc` alone. -/
theorem State.skipIf_eq (s : State) (c : Bool) : s.skipIf c = { s with pc := if c then s.pc + 2 else s.pc } := by
  cases c <;> rfl

end Sys2Proof.Machine
end

