-- ==== Sys2Proof/Laws/PerInstr.lean ====
section
/-! SUPPORT. Statements made per instruction. `OpcodeRow`: the word of an instruction matches the mask and the pattern of
its row of the opcode map, whatever its operands (spec/30_encoding.md R64, R65). -/

namespace Sys2Proof.Laws.OpcodeRow

/-- The word of the instruction selects the instruction's own row of the opcode map. -/
def Statement (i : Instr) : Prop := (rowOf i).selects (encode i) = true

theorem nibble_and_ones (n : Nibble) : n &&& 0xF#4 = n := by
  revert n; decide

/-- Mask F000: what is left of format ADDR is the opcode nibble. -/
theorem addr_opcode (op : Nibble) (nnn : Addr) : fmtADDR op nnn &&& 0xF000#16 = op ++ 0x000#12 := by
  have h : 0xF000#16 = 0xF#4 ++ 0x000#12 := by decide
  rw [fmtADDR, h, BitVec.and_append, nibble_and_ones, BitVec.and_zero]

/-- Mask F000: what is left of format XNN is the opcode nibble. -/
theorem xnn_opcode (op : Nibble) (x : Reg) (nn : Byte) : fmtXNN op x nn &&& 0xF000#16 = op ++ 0x0#4 ++ 0x00#8 := by
  have h : 0xF000#16 = 0xF#4 ++ 0x0#4 ++ 0x00#8 := by decide
  rw [fmtXNN, h, BitVec.and_append, BitVec.and_append, nibble_and_ones, BitVec.and_zero, BitVec.and_zero]

/-- Mask F0FF: what is left of format XS is the opcode nibble and the sub-opcode. -/
theorem xs_opcode (op : Nibble) (x : Reg) (nn : Byte) : fmtXNN op x nn &&& 0xF0FF#16 = op ++ 0x0#4 ++ nn := by
  have h : 0xF0FF#16 = 0xF#4 ++ 0x0#4 ++ 0xFF#8 := by decide
  have h8 : nn &&& 0xFF#8 = nn := BitVec.and_allOnes
  rw [fmtXNN, h, BitVec.and_append, BitVec.and_append, nibble_and_ones, BitVec.and_zero, h8]

/-- Mask F00F: what is left of format XY is the opcode nibble and the sub-opcode. -/
theorem xy_opcode (op : Nibble) (x y : Reg) (n : Nibble) :
    fmtXYN op x y n &&& 0xF00F#16 = op ++ 0x0#4 ++ 0x0#4 ++ n := by
  have h : 0xF00F#16 = 0xF#4 ++ 0x0#4 ++ 0x0#4 ++ 0xF#4 := by decide
  rw [fmtXYN, h, BitVec.and_append, BitVec.and_append, BitVec.and_append, nibble_and_ones, nibble_and_ones,
    BitVec.and_zero, BitVec.and_zero]

/-- Mask F000: what is left of format XYN is the opcode nibble. -/
theorem xyn_opcode (op : Nibble) (x y : Reg) (n : Nibble) :
    fmtXYN op x y n &&& 0xF000#16 = op ++ 0x0#4 ++ 0x0#4 ++ 0x0#4 := by
  have h : 0xF000#16 = 0xF#4 ++ 0x0#4 ++ 0x0#4 ++ 0x0#4 := by decide
  rw [fmtXYN, h, BitVec.and_append, BitVec.and_append, BitVec.and_append, nibble_and_ones, BitVec.and_zero,
    BitVec.and_zero, BitVec.and_zero]

theorem cls : Statement .cls := rfl
theorem ret : Statement .ret := rfl
theorem jp (nnn : Addr) : Statement (.jp nnn) := beq_iff_eq.2 (addr_opcode _ nnn)
theorem call (nnn : Addr) : Statement (.call nnn) := beq_iff_eq.2 (addr_opcode _ nnn)
theorem seImm (x : Reg) (nn : Byte) : Statement (.seImm x nn) := beq_iff_eq.2 (xnn_opcode _ x nn)
theorem sneImm (x : Reg) (nn : Byte) : Statement (.sneImm x nn) := beq_iff_eq.2 (xnn_opcode _ x nn)
theorem seReg (x : Reg) (y : Reg) : Statement (.seReg x y) := beq_iff_eq.2 (xy_opcode _ x y _)
theorem ldImm (x : Reg) (nn : Byte) : Statement (.ldImm x nn) := beq_iff_eq.2 (xnn_opcode _ x nn)
theorem addImm (x : Reg) (nn : Byte) : Statement (.addImm x nn) := beq_iff_eq.2 (xnn_opcode _ x nn)
theorem ldReg (x : Reg) (y : Reg) : Statement (.ldReg x y) := beq_iff_eq.2 (xy_opcode _ x y _)
theorem orReg (x : Reg) (y : Reg) : Statement (.orReg x y) := beq_iff_eq.2 (xy_opcode _ x y _)
theorem andReg (x : Reg) (y : Reg) : Statement (.andReg x y) := beq_iff_eq.2 (xy_opcode _ x y _)
theorem xorReg (x : Reg) (y : Reg) : Statement (.xorReg x y) := beq_iff_eq.2 (xy_opcode _ x y _)
theorem addReg (x : Reg) (y : Reg) : Statement (.addReg x y) := beq_iff_eq.2 (xy_opcode _ x y _)
theorem subReg (x : Reg) (y : Reg) : Statement (.subReg x y) := beq_iff_eq.2 (xy_opcode _ x y _)
theorem shr (x : Reg) (y : Reg) : Statement (.shr x y) := beq_iff_eq.2 (xy_opcode _ x y _)
theorem subnReg (x : Reg) (y : Reg) : Statement (.subnReg x y) := beq_iff_eq.2 (xy_opcode _ x y _)
theorem shl (x : Reg) (y : Reg) : Statement (.shl x y) := beq_iff_eq.2 (xy_opcode _ x y _)
theorem sneReg (x : Reg) (y : Reg) : Statement (.sneReg x y) := beq_iff_eq.2 (xy_opcode _ x y _)
theorem ldI (nnn : Addr) : Statement (.ldI nnn) := beq_iff_eq.2 (addr_opcode _ nnn)
theorem jpV0 (nnn : Addr) : Statement (.jpV0 nnn) := beq_iff_eq.2 (addr_opcode _ nnn)
theorem rnd (x : Reg) (nn : Byte) : Statement (.rnd x nn) := beq_iff_eq.2 (xnn_opcode _ x nn)
theorem drw (x : Reg) (y : Reg) (n : Nibble) : Statement (.drw x y n) := beq_iff_eq.2 (xyn_opcode _ x y n)
theorem skp (x : Reg) : Statement (.skp x) := beq_iff_eq.2 (xs_opcode _ x _)
theorem sknp (x : Reg) : Statement (.sknp x) := beq_iff_eq.2 (xs_opcode _ x _)
theorem ldVxDT (x : Reg) : Statement (.ldVxDT x) := beq_iff_eq.2 (xs_opcode _ x _)
theorem ldVxK (x : Reg) : Statement (.ldVxK x) := beq_iff_eq.2 (xs_opcode _ x _)
theorem ldDTVx (x : Reg) : Statement (.ldDTVx x) := beq_iff_eq.2 (xs_opcode _ x _)
theorem ldSTVx (x : Reg) : Statement (.ldSTVx x) := beq_iff_eq.2 (xs_opcode _ x _)
theorem addI (x : Reg) : Statement (.addI x) := beq_iff_eq.2 (xs_opcode _ x _)
theorem ldF (x : Reg) : Statement (.ldF x) := beq_iff_eq.2 (xs_opcode _ x _)
theorem ldB (x : Reg) : Statement (.ldB x) := beq_iff_eq.2 (xs_opcode _ x _)
theorem storeRegs (x : Reg) : Statement (.storeRegs x) := beq_iff_eq.2 (xs_opcode _ x _)
theorem loadRegs (x : Reg) : Statement (.loadRegs x) := beq_iff_eq.2 (xs_opcode _ x _)

end Sys2Proof.Laws.OpcodeRow
end

