-- ==== Sys2Proof/Tests/Slice0.lean ====
section
/-! SUPPORT. The model's own tests. Expected results are the vectors of spec/95_test_vectors.md (parts A and B) and words
written out from the opcode map of spec/30_encoding.md; the witnesses show that the hypotheses of the statements can be
met, at the ends of their ranges. -/

namespace Sys2Proof.Tests

open Sys2Proof Sys2Proof.Machine

/-! Helpers -/

/-- What one step leaves of the word `w` placed at the next fetch. -/
def after (w : Nat) (s : State) : Option State :=
  match step (s.withFetchWord 16 w) with
  | .next t => some t
  | .fault _ => none
  | .refused _ => none

/-- What an event leaves. -/
def afterEvent (e : Event) (s : State) : Option State :=
  match transition e s with
  | .next t => some t
  | .fault _ => none
  | .refused _ => none

/-- The reset state with some registers set. -/
def regs (l : List (Reg × Byte)) : State := l.foldl (fun s p => s.setV p.1 p.2) State.reset

/-- A state whose index register holds `a`. -/
def index (a : Word) (s : State) : State := { s with I := a }

/-- A state whose memory holds bytes from address `a` up. -/
def bytesAt (a : Nat) (bs : List Byte) (s : State) : State := { s with mem := Memory.writeBytes s.font s.mem a bs }

/-- The reset state at a stack depth. -/
def depth (n : Fin 17) : State := { State.reset with SP := n }

/-- The bytes at addresses `a` to `a + n - 1`. -/
def dump (a n : Nat) (s : State) : List Byte := Memory.readBytes s.font s.mem a n

/-- The display on which just these pixels are on, each listed once. -/
def screen (on : List (Fin 64 × Fin 32)) : Display := on.foldl (fun d p => d.toggle p.1 p.2) Display.clear

/-- What a fault leaves: the code, the two recorded words, `pc` and the mode. -/
def faultOf (s : State) : Nat × Word × Word × Word × Mode := (s.faultCause.code, s.faultAddr, s.faultOp, s.pc, s.mode)

/-- Waiting for register `r` at 0x200, key 7 held. -/
def waiting (r : Reg) : State :=
  { State.reset with mode := .waitingForKey, waitReg := r, key := State.reset.key.set 7 true, loadAllowed := false }

/-- Stopped by the underflow of a RET at 0x200. -/
def stopped : State :=
  { State.reset with mode := .faulted, faultCause := .stackUnderflow, faultAddr := 0x200, faultOp := 0x00EE, loadAllowed := false }

/-! Well-formedness: an ill-formed term for each check -/

theorem test_wf_register_out_of_field : operandsFit [(16, 4)] = false := by decide
theorem test_wf_immediate_out_of_field : operandsFit [(3, 4), (256, 8)] = false := by decide
theorem test_wf_address_out_of_field : operandsFit [(4096, 12)] = false := by decide
theorem test_wf_largest_operands : operandsFit [(15, 4), (255, 8), (4095, 12)] = true := by decide
theorem test_wf_image_too_long : imageFits (List.replicate 3585 0) = false :=
  decide_eq_false (by rw [List.length_replicate]; decide)
theorem test_wf_image_longest : imageFits (List.replicate 3584 0) = true :=
  decide_eq_true (by rw [List.length_replicate]; decide)
theorem test_wf_event_too_long : (Event.load (List.replicate 3585 0)).wf = false :=
  test_wf_image_too_long
theorem test_boot_second_load : bootOrder true [.load [], .load []] = false := by decide
theorem test_boot_load_after_step : bootOrder true [.step, .load []] = false := by decide
theorem test_boot_reload_after_reset : bootOrder true [.load [], .step, .tick, .reset, .load [], .step] = true := by decide
theorem test_memory_wf_refuses :
    Memory.wf defaultFont [(0x300, 1), (0x300, 2)] = false ∧ Memory.wf defaultFont [(0x301, 1), (0x300, 2)] = false ∧
    Memory.wf defaultFont [(0x300, 0)] = false ∧ Memory.wf defaultFont [(0x000, 0xF0)] = false ∧ Memory.wf defaultFont [(0x1000, 1)] = false := by decide

/-! Decoding: a word of every row of the opcode map, its fields written out (R61, R64) -/

theorem test_decode_control :
    decodeTableWord 16 0x00E0 = some .cls ∧ decodeTableWord 16 0x00EE = some .ret ∧
    decodeTableWord 16 0x1ABC = some (.jp 0xABC) ∧ decodeTableWord 16 0x2FFF = some (.call 0xFFF) ∧
    decodeTableWord 16 0xB310 = some (.jpV0 0x310) := by decide
theorem test_decode_skips :
    decodeTableWord 16 0x3A42 = some (.seImm 0xA 0x42) ∧ decodeTableWord 16 0x4BFF = some (.sneImm 0xB 0xFF) ∧
    decodeTableWord 16 0x5120 = some (.seReg 1 2) ∧ decodeTableWord 16 0x9F20 = some (.sneReg 0xF 2) ∧
    decodeTableWord 16 0xE59E = some (.skp 5) ∧ decodeTableWord 16 0xE6A1 = some (.sknp 6) := by decide
theorem test_decode_immediates :
    decodeTableWord 16 0x6A02 = some (.ldImm 0xA 0x02) ∧ decodeTableWord 16 0x70FF = some (.addImm 0 0xFF) ∧
    decodeTableWord 16 0xC5A5 = some (.rnd 5 0xA5) := by decide
theorem test_decode_group8 :
    decodeTableWord 16 0x8120 = some (.ldReg 1 2) ∧ decodeTableWord 16 0x8121 = some (.orReg 1 2) ∧
    decodeTableWord 16 0x8122 = some (.andReg 1 2) ∧ decodeTableWord 16 0x8123 = some (.xorReg 1 2) ∧
    decodeTableWord 16 0x8124 = some (.addReg 1 2) ∧ decodeTableWord 16 0x8125 = some (.subReg 1 2) ∧
    decodeTableWord 16 0x8126 = some (.shr 1 2) ∧ decodeTableWord 16 0x8127 = some (.subnReg 1 2) ∧
    decodeTableWord 16 0x812E = some (.shl 1 2) := by decide
theorem test_decode_index_display :
    decodeTableWord 16 0xA300 = some (.ldI 0x300) ∧ decodeTableWord 16 0xD0B5 = some (.drw 0 0xB 5) := by decide
theorem test_decode_groupF :
    decodeTableWord 16 0xF107 = some (.ldVxDT 1) ∧ decodeTableWord 16 0xF20A = some (.ldVxK 2) ∧
    decodeTableWord 16 0xF315 = some (.ldDTVx 3) ∧ decodeTableWord 16 0xF418 = some (.ldSTVx 4) ∧
    decodeTableWord 16 0xF51E = some (.addI 5) ∧ decodeTableWord 16 0xFA29 = some (.ldF 0xA) ∧
    decodeTableWord 16 0xF733 = some (.ldB 7) ∧ decodeTableWord 16 0xF855 = some (.storeRegs 8) ∧
    decodeTableWord 16 0xFF65 = some (.loadRegs 0xF) := by decide
/-- One unknown word of every kind that R67 lists (B1.23 to B1.26). -/
theorem test_decode_unknown :
    decodeTableWord 16 0x0000 = none ∧ decodeTableWord 16 0x01E0 = none ∧ decodeTableWord 16 0x5121 = none ∧
    decodeTableWord 16 0x8128 = none ∧ decodeTableWord 16 0x812F = none ∧ decodeTableWord 16 0x9121 = none ∧
    decodeTableWord 16 0xE19F = none ∧ decodeTableWord 16 0xF1FF = none := by decide
theorem test_decode_errors_by_name :
    decode true [0x51, 0x21] = .error (.unknown 0x5121) ∧ decode true [0x6A] = .error .truncated ∧ decode true [] = .error .truncated := by
  refine ⟨rfl, rfl, rfl⟩
theorem test_decode_rest : decode true [0x6A, 0x02, 0xFA, 0x29] = .ok (.ldImm 0xA 2, [0xFA, 0x29]) := rfl
/-- The two strictnesses of 5XYN (R68). -/
theorem test_decode_loose : decodeWordWith false 0x5121 = some (.seReg 1 2) ∧ decodeWordWith true 0x5121 = none := by decide

/-- R68: with STRICT_LOW_NIBBLE false the machine skips on 5121 (V1 = V2 = 0), where the default machine emits Diag (B1.24). -/
theorem test_loose_machine :
    (after 0x5121 (State.resetWith defaultFont false)).map (fun t => (t.pc, t.outputs)) = some (0x204, []) := by decide
/-- R29, R190: another FONT is what reset puts at 0x000, and a Reset event puts it back over a store. -/
theorem test_other_font :
    (afterEvent .reset (bytesAt 0 [0x99] (State.resetWith (Vector.replicate 80 0x11) true))).map (dump 0 2)
      = some [0x11, 0x11] := by decide

/-! One step of each instruction, two vectors at most -/

/-- B1.1 -/
theorem test_jp : (after 0x1ABC State.reset).map (·.pc) = some 0xABC := by decide
/-- B1.5 -/
theorem test_call : (after 0x2ABC (depth 15)).map (fun t => (t.pc, t.SP.val, t.stack[15])) = some (0xABC, 16, 0x202) := by
  decide
/-- B1.6 -/
theorem test_call_overflow :
    (after 0x2ABC (depth 16)).map (fun t => (faultOf t, t.SP.val)) = some ((3, 0x200, 0x2ABC, 0x200, .faulted), 16) := by
  decide
/-- B1.7 -/
theorem test_ret :
    (after 0x00EE { depth 1 with stack := State.reset.stack.set 0 0x345 }).map (fun t => (t.pc, t.SP.val, t.stack[0]))
      = some (0x345, 0, 0x345) := by decide
/-- B1.8 -/
theorem test_ret_underflow : (after 0x00EE State.reset).map faultOf = some (4, 0x200, 0x00EE, 0x200, .faulted) := by decide
/-- B1.10 -/
theorem test_jpV0_no_reduction : (after 0xBFFF (regs [(0, 0xFF)])).map (·.pc) = some 0x10FE := by decide
/-- B1.11 -/
theorem test_jpV0_uses_V0 : (after 0xB310 (regs [(0, 0xFF), (3, 0x10)])).map (·.pc) = some 0x40F := by decide
/-- B1.12, B1.13 -/
theorem test_seImm :
    (after 0x3342 (regs [(3, 0x42)])).map (·.pc) = some 0x204 ∧ (after 0x3343 (regs [(3, 0x42)])).map (·.pc) = some 0x202 := by
  decide
/-- B1.22 -/
theorem test_seImm_at_top : (after 0x3300 { State.reset with pc := 0xFFE }).map (·.pc) = some 0x1002 := by decide
/-- B1.14, B1.15 -/
theorem test_sneImm :
    (after 0x4342 (regs [(3, 0x42)])).map (·.pc) = some 0x202 ∧ (after 0x4343 (regs [(3, 0x42)])).map (·.pc) = some 0x204 := by
  decide
/-- B1.16, B1.17 -/
theorem test_seReg :
    (after 0x5120 (regs [(1, 7), (2, 7)])).map (·.pc) = some 0x204 ∧
    (after 0x5120 (regs [(1, 7), (2, 8)])).map (·.pc) = some 0x202 := by decide
/-- B1.19, B1.20 -/
theorem test_sneReg :
    (after 0x9120 (regs [(1, 7), (2, 8)])).map (·.pc) = some 0x204 ∧
    (after 0x9120 (regs [(1, 7), (2, 7)])).map (·.pc) = some 0x202 := by decide
/-- B1.24 -/
theorem test_unknown_word :
    (after 0x5121 State.reset).map (fun t => (t.pc, t.outputs, t.mode)) = some (0x202, [.diag 0x200 0x5121], .normal) := by
  decide
/-- B1.3 -/
theorem test_fetch_fault :
    (afterEvent .step { State.reset with pc := 0xFFF }).map faultOf = some (1, 0xFFF, 0, 0xFFF, .faulted) := by decide
/-- B1.27 -/
theorem test_fetch_odd :
    (after 0x6A02 { State.reset with pc := 0x201 }).map (fun t => (t.getV 0xA, t.pc)) = some (2, 0x203) := by decide

/-- B2.2 -/
theorem test_ldImm : (after 0x6FFF State.reset).map (·.getV 0xF) = some 0xFF := by decide
/-- B2.4 -/
theorem test_addImm : (after 0x7001 (regs [(0, 0xFF)])).map (fun t => (t.getV 0, t.getV 0xF)) = some (0, 0) := by decide
/-- B2.5 -/
theorem test_ldReg : (after 0x8120 (regs [(2, 0x7E)])).map (fun t => (t.getV 1, t.getV 2)) = some (0x7E, 0x7E) := by decide
/-- B2.6 -/
theorem test_orReg :
    (after 0x8121 (regs [(1, 0x0F), (2, 0xF0), (0xF, 1)])).map (fun t => (t.getV 1, t.getV 0xF)) = some (0xFF, 1) := by decide
/-- B2.7 -/
theorem test_andReg :
    (after 0x8122 (regs [(1, 0x3C), (2, 0x0F), (0xF, 1)])).map (fun t => (t.getV 1, t.getV 0xF)) = some (0x0C, 1) := by decide
/-- B2.8 -/
theorem test_xorReg :
    (after 0x8123 (regs [(1, 0xFF), (2, 0x0F), (0xF, 1)])).map (fun t => (t.getV 1, t.getV 0xF)) = some (0xF0, 1) := by decide
/-- B2.10 -/
theorem test_addReg : (after 0x8014 (regs [(0, 200), (1, 100)])).map (fun t => (t.getV 0, t.getV 0xF)) = some (44, 1) := by
  decide
/-- B2.14, B2.16 -/
theorem test_addReg_VF :
    (after 0x8F14 (regs [(0xF, 1), (1, 0x64)])).map (·.getV 0xF) = some 0 ∧
    (after 0x80F4 (regs [(0, 0x10), (0xF, 5)])).map (fun t => (t.getV 0, t.getV 0xF)) = some (0x15, 0) := by decide
/-- B2.17 -/
theorem test_subReg : (after 0x8015 (regs [(0, 44), (1, 100)])).map (fun t => (t.getV 0, t.getV 0xF)) = some (200, 0) := by
  decide
/-- B2.19 -/
theorem test_subReg_equal : (after 0x8015 (regs [(0, 7), (1, 7)])).map (fun t => (t.getV 0, t.getV 0xF)) = some (0, 1) := by
  decide
/-- B2.21 -/
theorem test_subnReg : (after 0x8017 (regs [(0, 200), (1, 100)])).map (fun t => (t.getV 0, t.getV 0xF)) = some (156, 0) := by
  decide
/-- B2.25 -/
theorem test_shr_ignores_Y :
    (after 0x8016 (regs [(0, 0x01), (1, 0xAA)])).map (fun t => (t.getV 0, t.getV 1, t.getV 0xF)) = some (0, 0xAA, 1) := by decide
/-- B2.28 -/
theorem test_shr_VF : (after 0x8F06 (regs [(0xF, 2)])).map (·.getV 0xF) = some 0 := by decide
/-- B2.29 -/
theorem test_shl : (after 0x800E (regs [(0, 0x9C)])).map (fun t => (t.getV 0, t.getV 0xF)) = some (0x38, 1) := by decide
/-- B2.32 -/
theorem test_shl_VF : (after 0x8F0E (regs [(0xF, 0x81)])).map (·.getV 0xF) = some 1 := by decide
/-- B2.33, with the draw left free -/
theorem test_rnd : exec (.rnd 0 0x0F) State.reset =
    .next (({ State.reset with randCount := 1 } : State).setV 0 (Config.rand 0 &&& 0x0F)) := rfl

/-- B3.2 -/
theorem test_ldI : (after 0xAFFF State.reset).map (·.I) = some 0x0FFF := by decide
/-- B3.4 -/
theorem test_addI :
    (after 0xF21E (index 0x0FFF (regs [(2, 1)]))).map (fun t => (t.I, t.getV 0xF, t.mode)) = some (0x1000, 0, .normal) := by
  decide
/-- B3.5 -/
theorem test_addI_wraps : (after 0xF21E (index 0xFFFF (regs [(2, 1)]))).map (·.I) = some 0 := by decide
/-- B3.6, B3.9 -/
theorem test_ldF :
    (after 0xFA29 (regs [(0xA, 2)])).map (·.I) = some 0x000A ∧ (after 0xFA29 (regs [(0xA, 0xFF)])).map (·.I) = some 0x04FB := by
  decide
/-- B3.11 -/
theorem test_ldB :
    (after 0xF533 (index 0x300 (regs [(5, 156)]))).map (fun t => (dump 0x300 3 t, t.I)) = some ([1, 5, 6], 0x300) := by decide
/-- B3.14 -/
theorem test_ldB_fault :
    (after 0xF533 (index 0xFFE (regs [(5, 7)]))).map (fun t => (faultOf t, dump 0xFFE 2 t))
      = some ((2, 0x200, 0xF533, 0x200, .faulted), [0, 0]) := by decide
/-- B3.15 -/
theorem test_storeRegs :
    (after 0xF155 (index 0x208 (regs [(0, 0x12), (1, 0x08), (2, 0x99)]))).map (fun t => (dump 0x208 3 t, t.I))
      = some ([0x12, 0x08, 0], 0x208) := by decide
/-- B3.20 -/
theorem test_storeRegs_font : (after 0xF055 (regs [(0, 0x99)])).map (dump 0 2) = some [0x99, 0x90] := by decide
/-- B3.21 -/
theorem test_loadRegs :
    (after 0xF265 (bytesAt 0x300 [1, 5, 6] (index 0x300 (regs [(3, 0x77)])))).map
      (fun t => (t.getV 0, t.getV 1, t.getV 2, t.getV 3, t.I)) = some (1, 5, 6, 0x77, 0x300) := by decide
/-- B3.23 -/
theorem test_loadRegs_fault :
    (after 0xF065 (index 0x1000 State.reset)).map faultOf = some (2, 0x200, 0xF065, 0x200, .faulted) := by decide

/-- B4.1 -/
theorem test_cls :
    (after 0x00E0 { regs [(0xF, 1)] with disp := screen [(63, 31)] }).map
      (fun t => (t.disp, t.dirty, t.getV 0xF)) = some (screen [], true, 1) := by decide
/-- B4.2 -/
theorem test_drw_glyph :
    (after 0xD0B5 (index 0x00A State.reset)).map (fun t => (t.disp, t.getV 0xF, t.dirty)) =
      some (screen [(0,0), (1,0), (2,0), (3,0), (3,1), (0,2), (1,2), (2,2), (3,2), (0,3), (0,4), (1,4), (2,4), (3,4)], 0, true) := by
  decide +kernel
/-- B4.6 with one of its pixels on before: the sprite wraps on both axes, and that pixel collides and goes off (R132). -/
theorem test_drw_wraps :
    (after 0xD012 (bytesAt 0x300 [0xC0, 0xC0]
        { index 0x300 (regs [(0, 255), (1, 255)]) with disp := screen [(0, 0)] })).map
      (fun t => (t.disp, t.getV 0xF)) = some (screen [(63, 0), (0, 31), (63, 31)], 1) := by decide

/-- B5.1 -/
theorem test_ldVxDT : (after 0xF407 { State.reset with DT := 6 }).map (·.getV 4) = some 6 := by decide
/-- B5.2 -/
theorem test_ldDTVx : (after 0xF315 (regs [(3, 7)])).map (fun t => (t.DT, t.ST)) = some (7, 0) := by decide
/-- B5.3 -/
theorem test_ldSTVx : (after 0xF318 (regs [(3, 7)])).map (fun t => (t.DT, t.ST, t.tone)) = some (0, 7, true) := by decide
/-- B5.12, B5.13 -/
theorem test_skp :
    (after 0xE59E { regs [(5, 0x0A)] with key := State.reset.key.set 10 true }).map (·.pc) = some 0x204 ∧
    (after 0xE59E (regs [(5, 0x0A)])).map (·.pc) = some 0x202 := by decide
/-- B5.14, B5.15 -/
theorem test_sknp :
    (after 0xE5A1 (regs [(5, 0x0A)])).map (·.pc) = some 0x204 ∧
    (after 0xE5A1 { regs [(5, 0x0A)] with key := State.reset.key.set 10 true }).map (·.pc) = some 0x202 := by decide
/-- B5.16 -/
theorem test_key_skips_fault :
    (after 0xE59E (regs [(5, 0x10)])).map faultOf = some (5, 0x200, 0xE59E, 0x200, .faulted) ∧
    (after 0xE5A1 (regs [(5, 0x10)])).map faultOf = some (5, 0x200, 0xE5A1, 0x200, .faulted) := by decide
/-- B5.17 -/
theorem test_ldVxK :
    (after 0xF30A { regs [(3, 9)] with key := State.reset.key.set 7 true }).map (fun t => (t.mode, t.waitReg, t.pc, t.getV 3))
      = some (.waitingForKey, 3, 0x200, 9) := by decide

/-! One event of each kind -/

/-- B5.6 -/
theorem test_tick_beep :
    (afterEvent .tick { State.reset with DT := 3, ST := 1 }).map (fun t => (t.DT, t.ST, t.outputs, t.tone))
      = some (2, 0, [.beep], false) := by decide
/-- B5.7 -/
theorem test_tick_clamps : (afterEvent .tick State.reset).map (fun t => (t.DT, t.ST, t.outputs)) = some (0, 0, []) := by decide
/-- B5.19 -/
theorem test_key_up_keeps_waiting :
    (afterEvent (.keyEvent 7 false) (waiting 3)).map (fun t => (t.key[7], t.mode)) = some (false, .waitingForKey) := by decide
/-- B5.23 -/
theorem test_key_down_wakes :
    (afterEvent (.keyEvent 9 true) (waiting 0xF)).map (fun t => (t.getV 0xF, t.key[9], t.pc, t.mode))
      = some (9, true, 0x202, .normal) := by decide
/-- B4.14 -/
theorem test_presentAck : (afterEvent .presentAck { State.reset with dirty := true }).map (·.dirty) = some false := by decide
/-- R190 -/
theorem test_reset_event : afterEvent .reset stopped = some State.reset := rfl
/-- R191: the image of program P1 -/
theorem test_load :
    (afterEvent (.load [0x6A, 0x02, 0xFA, 0x29, 0xD0, 0xB5]) State.reset).map (fun t => (dump 0x1FF 8 t, t.pc))
      = some ([0, 0x6A, 0x02, 0xFA, 0x29, 0xD0, 0xB5, 0], 0x200) := by decide
/-- R179: after the host's quit there is no next state. -/
theorem test_quit : transition .quit State.reset = .fault .poweredOff := rfl

/-! Witnesses: states and operands that meet the hypotheses of each statement that has any -/

theorem witness_EncodingADecodedWordGivesItBack : decodeWordWith true 0x8F1E = some (.shl 0xF 0x1) := by decide
theorem witness_AWordSelectsOnlyTheRowItDecodesTo :
    decodeWordWith true 0xF065 = some (.loadRegs 0) ∧ rowOf (.loadRegs 0) ∈ opcodeRows ∧ decodeWordWith true 0x5001 = none := by
  decide
theorem witness_LooseLowNibbleChangesGroups5And9Only :
    (0x4FFF#16).toNat / 0x1000 ≠ 0x5 ∧ (0x4FFF#16).toNat / 0x1000 ≠ 0x9 ∧
    (0xA000#16).toNat / 0x1000 ≠ 0x5 ∧ (0xA000#16).toNat / 0x1000 ≠ 0x9 := by decide

theorem inv_waiting : Inv (waiting 3) :=
  ⟨by decide, by decide, by decide, by decide, by decide, by decide, by decide, by decide, by decide⟩
theorem inv_stopped : Inv stopped :=
  ⟨by decide, by decide, by decide, by decide, by decide, by decide, by decide, by decide, by decide⟩
/-- The invariant and a step: a wait that a key ends, and a fault that a reset ends. -/
theorem witness_EveryStepKeepsTheInvariant :
    (Inv { waiting 3 with schedule := [.keyEvent 2 true] } ∧
      ∃ t, step { waiting 3 with schedule := [.keyEvent 2 true] } = .next t) ∧
    (Inv { stopped with schedule := [.reset] } ∧ ∃ t, step { stopped with schedule := [.reset] } = .next t) := by
  obtain ⟨a1, a2, a3, a4, a5, a6, a7, a8, a9⟩ := inv_waiting
  obtain ⟨b1, b2, b3, b4, b5, b6, b7, b8, b9⟩ := inv_stopped
  exact ⟨⟨⟨a1, a2, a3, a4, a5, a6, a7, a8, a9⟩, _, rfl⟩, ⟨⟨b1, b2, b3, b4, b5, b6, b7, b8, b9⟩, _, rfl⟩⟩

/-- The last address a fetch can have. -/
def atTop (w : Nat) : State := ({ State.reset with pc := 0xFFE } : State).withFetchWord 16 w

theorem witness_AStepRunsTheDecodedInstruction :
    let s := atTop 0x6A02
    s.schedule = [] ∧ s.mode = .normal ∧ s.pc.toNat ≤ 0xFFE ∧
    decode s.strictLowNibble [s.byte s.pc.toNat, s.byte (s.pc.toNat + 1)] = .ok (.ldImm 0xA 2, []) :=
  ⟨rfl, rfl, by decide, rfl⟩
theorem witness_AnUnknownWordOnlyEmitsDiag :
    let s := atTop 0x5121
    s.schedule = [] ∧ s.mode = .normal ∧ s.pc.toNat ≤ 0xFFE ∧
    wordOfBytes (s.byte s.pc.toNat) (s.byte (s.pc.toNat + 1)) = 0x5121 ∧ decodeWordWith s.strictLowNibble 0x5121 = none := by
  decide
theorem witness_AFetchAboveFFERaisesFaultOne :
    let s : State := { State.reset with pc := 0xFFF }
    s.schedule = [] ∧ s.mode = .normal ∧ s.pc.toNat > 0xFFE := by decide
theorem witness_AStepOutsideNormalDoesNothing :
    (waiting 0).schedule = [] ∧ (waiting 0).mode ≠ .normal ∧ stopped.schedule = [] ∧ stopped.mode ≠ .normal := by decide
theorem witness_AScheduleRunsItsEventsInOrder : State.reset.schedule = [] := rfl
/-- Each clause: a fetch at the last address, one that has to move, a word that decodes and one that does not. -/
theorem witness_APlacedWordIsTheOneTheNextStepRuns :
    Memory.wf State.reset.font State.reset.mem = true ∧ ({ State.reset with pc := 0xFFE } : State).pc.toNat ≤ 0xFFE ∧
    ¬ ({ State.reset with pc := 0xFFF } : State).pc.toNat ≤ 0xFFE ∧
    decodeWordWith State.reset.strictLowNibble 0xFF65 = some (.loadRegs 0xF) ∧ decodeWordWith State.reset.strictLowNibble 0xFFFF = none := by decide

theorem witness_CallPushesTheAdvancedPcAndJumps : (depth 0).SP.val < 16 ∧ (depth 15).SP.val < 16 := by decide
theorem witness_RetPopsIntoPc : (depth 1).SP.val > 0 ∧ (depth 16).SP.val > 0 := by decide
theorem witness_CallAtFullStackAndRetAtEmptyStackFault : (depth 16).SP.val = 16 ∧ (depth 0).SP.val = 0 := by decide
/-- The last call that fits; the return happens in the state the call left. -/
theorem witness_ARetUndoesItsCall :
    (depth 15).SP.val < 16 ∧ ∃ t : State, exec (.call 0xABC) (depth 15) = .next t ∧ t.SP = t.SP ∧ t.stack = t.stack :=
  ⟨by decide, _, rfl, rfl, rfl⟩

/-- Both clauses: a register that a store does not name, and a flag writer that does not fault. -/
theorem witness_RegistersAreWrittenOnlyAsListed :
    (∃ t, exec (.loadRegs 0xE) (index 0xFF1 State.reset) = .next t) ∧
    isDestReg (.loadRegs 0xE) VF = false ∧ (VF = VF → writesFlag (.loadRegs 0xE) = false) ∧
    (∃ t, exec (.drw 0 1 1) (index 0xFFF State.reset) = .next t) ∧
    writesFlag (.drw 0 1 1) = true ∧ faultCauseOf (.drw 0 1 1) (index 0xFFF State.reset) = none :=
  ⟨⟨_, rfl⟩, by decide, by decide, ⟨_, rfl⟩, by decide, by decide⟩

theorem witness_BcdStoresThreeDigits :
    Memory.wf (index 0xFFD State.reset).font (index 0xFFD State.reset).mem = true ∧ (index 0xFFD State.reset).I.toNat + 2 ≤ 0xFFF := by decide
theorem witness_BlockStoreCopiesRegistersToMemory :
    Memory.wf (index 0xFF0 State.reset).font (index 0xFF0 State.reset).mem = true ∧ (index 0xFF0 State.reset).I.toNat + (0xF : Reg).val ≤ 0xFFF ∧
    (index 0xFFF State.reset).I.toNat + (0 : Reg).val ≤ 0xFFF := by decide
theorem witness_BlockLoadCopiesMemoryToRegisters :
    (index 0xFF0 State.reset).I.toNat + (0xF : Reg).val ≤ 0xFFF ∧ (index 0xFFF State.reset).I.toNat + (0 : Reg).val ≤ 0xFFF := by
  decide
/-- The first index at which each access leaves memory. -/
theorem witness_DataAccessesAboveFFFRaiseFaultTwo :
    (index 0xFFE State.reset).I.toNat + 2 > 0xFFF ∧ (index 0xFF1 State.reset).I.toNat + (0xF : Reg).val > 0xFFF ∧
    (index 0x1000 State.reset).I.toNat + (0 : Reg).val > 0xFFF ∧
    (15#4).toNat ≥ 1 ∧ (index 0xFF2 State.reset).I.toNat + (15#4).toNat - 1 > 0xFFF ∧
    (1#4).toNat ≥ 1 ∧ (index 0x1000 State.reset).I.toNat + (1#4).toNat - 1 > 0xFFF := by decide
/-- One memory reached by two histories: the second writes a byte and puts its reset value back. -/
theorem witness_CanonicalMemoriesWithEqualBytesAreEqual :
    let m : Memory := [(0xFFF, 7)]
    let m' := Memory.write defaultFont (Memory.write defaultFont (Memory.write defaultFont [] 0 0x99) 0xFFF 7) 0 0xF0
    Memory.wf defaultFont m = true ∧ Memory.wf defaultFont m' = true ∧
      ∀ a, Memory.read defaultFont m a = Memory.read defaultFont m' a :=
  ⟨by decide, by decide, fun _ => rfl⟩
/-- Program P5 before its fourth step: the store falls on the next instruction. -/
theorem witness_AStoreIsSeenByTheNextFetch :
    let s : State := { index 0x208 (regs [(0, 0x12), (1, 0x08)]) with pc := 0x208 }
    Memory.wf s.font s.mem = true ∧ s.I.toNat + (1 : Reg).val ≤ 0xFFF ∧ s.pc.toNat = s.I.toNat + (0 : Reg).val ∧
    (1 : Reg).val = (0 : Reg).val + 1 ∧ (1 : Reg).val ≤ (1 : Reg).val ∧ ∃ t, exec (.storeRegs 1) s = .next t :=
  ⟨by decide, by decide, by decide, by decide, by decide, _, rfl⟩

/-- No row at any index, and the last byte of memory. -/
theorem witness_DrawTogglesThePixelsItsBitsFallOn :
    ((0 : Nibble) = 0 ∨ (index 0x1000 State.reset).I.toNat + (0 : Nibble).toNat - 1 ≤ 0xFFF) ∧
    ((1 : Nibble) = 0 ∨ (index 0xFFF State.reset).I.toNat + (1 : Nibble).toNat - 1 ≤ 0xFFF) ∧
    ((15 : Nibble) = 0 ∨ (index 0xFF1 State.reset).I.toNat + (15 : Nibble).toNat - 1 ≤ 0xFFF) := by decide
/-- A glyph whose column is the old `VF`: the second draw needs `VF` set back. -/
theorem witness_DrawingTwiceRestoresTheDisplay :
    let s := regs [(VF, 60)]
    faultCauseOf (.drw VF 1 5) s = none ∧
    ∃ t t' : State, exec (.drw VF 1 5) s = .next t ∧ t'.disp = t.disp ∧ t'.I = s.I ∧ t'.getV VF = s.getV VF ∧
      t'.getV 1 = s.getV 1 ∧ ∀ a, t'.byte a = s.byte a :=
  ⟨by decide, _, (regs [(VF, 60)] |>.withSprite VF 1 (dump 0 5 State.reset)).setV VF 60, rfl, rfl, rfl, by decide, by decide,
    fun _ => rfl⟩

theorem witness_KeySkipsFollowTheLatch :
    ((regs [(5, 15)]).getV 5).toNat = (15 : KeyIndex).val ∧ ((regs [(5, 0)]).getV 5).toNat = (0 : KeyIndex).val := by decide
theorem witness_KeySkipsAboveFifteenRaiseFaultFive :
    ((regs [(5, 16)]).getV 5).toNat > 0xF ∧ ((regs [(5, 255)]).getV 5).toNat > 0xF := by decide
/-- Both clauses: a key-down in a wait; a key-up in a wait, and a key-down outside one. -/
theorem witness_KeyEventsUpdateTheLatchAndWakeTheWait :
    (true = true ∧ (waiting VF).mode = .waitingForKey) ∧ ¬ (false = true ∧ (waiting VF).mode = .waitingForKey) ∧
    ¬ (true = true ∧ State.reset.mode = .waitingForKey) := by decide
theorem witness_TheWaitKeepsEverythingUntilAKeyGoesDown :
    (waiting 3).mode = .waitingForKey ∧
    ∀ e ∈ [Event.step, .tick, .presentAck, .keyEvent 15 false, .step],
      e = .step ∨ e = .tick ∨ e = .presentAck ∨ ∃ k, e = .keyEvent k false := by
  refine ⟨rfl, ?_⟩
  simp
/-- Each clause: the longest image, the first that is too long, and a machine that has stepped. -/
theorem witness_LoadCopiesTheImageOnceBeforeTheFirstStep :
    Memory.wf State.reset.font State.reset.mem = true ∧ State.reset.loadAllowed = true ∧ (List.replicate 3584 (0 : Byte)).length ≤ 3584 ∧
    (List.replicate 3585 (0 : Byte)).length > 3584 ∧ Memory.wf (waiting 0).font (waiting 0).mem = true ∧ (waiting 0).loadAllowed = false := by
  simp only [List.length_replicate]
  decide

theorem witness_NoTransitionChangesTheParameters :
    (∃ t, transition .reset stopped = .next t) ∧ ∃ t, transition .step (State.resetWith (Vector.replicate 80 0x11) false) = .next t :=
  ⟨⟨_, rfl⟩, _, rfl⟩
theorem witness_EachInstructionChangesOnlyItsParts :
    (∃ t, exec (.storeRegs 0xF) (index 0xFF0 State.reset) = .next t) ∧
    faultCauseOf (.storeRegs 0xF) (index 0xFF0 State.reset) = none := ⟨⟨_, rfl⟩, by decide⟩
/-- Both clauses, for the same instruction on both sides of its bound. -/
theorem witness_FaultsAreExactlyTheListedOnesAndPrecise :
    (∃ t, exec (.ldB 5) (index 0xFFE State.reset) = .next t) ∧
    faultCauseOf (.ldB 5) (index 0xFFE State.reset) = some .dataAddress ∧
    (∃ t, exec (.ldB 5) (index 0xFFD State.reset) = .next t) ∧ faultCauseOf (.ldB 5) (index 0xFFD State.reset) = none ∧
    (index 0xFFD State.reset).mode = .normal := ⟨⟨_, rfl⟩, by decide, ⟨_, rfl⟩, by decide, rfl⟩
theorem witness_FaultedIsAbsorbingUntilReset :
    Inv stopped ∧ stopped.mode = .faulted ∧ Event.reset ∉ [Event.step, .tick, .keyEvent 2 true, .presentAck] ∧
    ∃ t, runEvents [.step, .tick, .keyEvent 2 true, .presentAck] stopped = .next t :=
  ⟨inv_stopped, rfl, by decide, _, rfl⟩
/-- B1.2 after its first step: the jump to itself at 0x200. -/
theorem witness_AParkedMachineStaysParked :
    let s := ({ State.reset with loadAllowed := false } : State).withFetchWord 16 0x1200
    Parked s ∧ s.schedule = [] ∧ s.loadAllowed = false :=
  ⟨⟨rfl, 0x1200, 0x200, by decide, by decide, by decide⟩, rfl, rfl⟩
theorem witness_DirtyAndSoundHaveNoEffectOnExecution :
    ∃ t, runEvents [.load [0x00, 0xE0, 0xF3, 0x18], .step, .presentAck, .step, .tick] State.reset = .next t := ⟨_, rfl⟩

end Sys2Proof.Tests
end

section
/-! Scope (spec/00_scope.md R5): no transition changes the parameters FONT and STRICT_LOW_NIBBLE. -/

namespace Sys2Proof.Machine

/-- If the outcome `r` is a next state, that state has the parameters of `s` (R5). -/
def KeepsParameters (s : State) (r : Result) : Prop :=
  ∀ t, r = .next t → t.font = s.font ∧ t.strictLowNibble = s.strictLowNibble

theorem KeepsParameters.of_next {s t : State} {r : Result} (h : r = .next t) (hfont : t.font = s.font)
    (hstrict : t.strictLowNibble = s.strictLowNibble) : KeepsParameters s r := by
  rintro u hu
  cases h.symm.trans hu
  exact ⟨hfont, hstrict⟩

theorem KeepsParameters.of_raiseIn {s : State} {r : Result} {cause : FaultCause} {i : Instr}
    (h : r = raiseIn cause i s) : KeepsParameters s r :=
  .of_next h (State.raise_font ..) (State.raise_strictLowNibble ..)

theorem KeepsParameters.of_skipIf {s : State} {r : Result} {c : Bool} (h : r = .next (s.skipIf c)) :
    KeepsParameters s r :=
  .of_next h (State.skipIf_font ..) (State.skipIf_strictLowNibble ..)

/-- Keeping the parameters looks at nothing of the earlier state but its parameters. -/
theorem KeepsParameters.of_same {s u : State} {r : Result} (h : KeepsParameters u r) (hfont : u.font = s.font)
    (hstrict : u.strictLowNibble = s.strictLowNibble) : KeepsParameters s r := by
  intro t ht
  rw [← hfont, ← hstrict]
  exact h t ht

/-- No instruction changes a parameter: one that can fault keeps them on both sides of its bound. -/
theorem exec_keepsParameters (i : Instr) (s : State) : KeepsParameters s (exec i s) := by
  cases i with
  | cls | jp | jpV0 | ldI | addI | ldF | ldVxDT | ldVxK | ldDTVx | ldSTVx => exact .of_next rfl rfl rfl
  | ldImm | addImm | ldReg | orReg | andReg | xorReg | rnd =>
    exact .of_next rfl (State.setV_font ..) (State.setV_strictLowNibble ..)
  | addReg | subReg | shr | subnReg | shl =>
    exact .of_next rfl (State.setResultFlag_font ..) (State.setResultFlag_strictLowNibble ..)
  | seImm | sneImm | seReg | sneReg => exact .of_skipIf rfl
  | skp x =>
    cases h : keyIndex? (s.getV x) with
    | some k => exact .of_skipIf (execSkp_of_key (keyIndex?_eq_some.1 h))
    | none => exact .of_raiseIn (execSkp_of_large (keyIndex?_eq_none.1 h))
  | sknp x =>
    cases h : keyIndex? (s.getV x) with
    | some k => exact .of_skipIf (execSknp_of_key (keyIndex?_eq_some.1 h))
    | none => exact .of_raiseIn (execSknp_of_large (keyIndex?_eq_none.1 h))
  | call nnn =>
    rcases Nat.lt_or_ge s.SP.val 16 with room | full
    · exact .of_next (execCall_of_room room) rfl rfl
    · exact .of_raiseIn (execCall_of_full (by omega))
  | ret =>
    by_cases empty : s.SP.val = 0
    · exact .of_raiseIn (execRet_of_empty empty)
    · exact .of_next (execRet_of_nonempty empty) rfl rfl
  | ldB x =>
    rcases Nat.lt_or_ge 0xFFF (s.I.toNat + 2) with outside | inside
    · exact .of_raiseIn (execLdB_of_outside outside)
    · exact .of_next (execLdB_of_inside inside) rfl rfl
  | storeRegs x =>
    rcases Nat.lt_or_ge 0xFFF (s.I.toNat + x.val) with outside | inside
    · exact .of_raiseIn (execStoreRegs_of_outside outside)
    · exact .of_next (execStoreRegs_of_inside inside) rfl rfl
  | loadRegs x =>
    rcases Nat.lt_or_ge 0xFFF (s.I.toNat + x.val) with outside | inside
    · exact .of_raiseIn (execLoadRegs_of_outside outside)
    · exact .of_next (execLoadRegs_of_inside inside) (State.setRegs_font ..) (State.setRegs_strictLowNibble ..)
  | drw x y n =>
    by_cases inside : n.toNat = 0 ∨ s.I.toNat + n.toNat ≤ 0x1000
    · exact .of_next (execDrw_of_inside inside) (State.withSprite_font ..) (State.withSprite_strictLowNibble ..)
    · exact .of_raiseIn (execDrw_of_outside (by omega))

/-- A fetched word keeps the parameters, known or unknown (R80, R90). -/
theorem execWord_keepsParameters (w : Word) (s : State) : KeepsParameters s (execWord w s) := by
  unfold execWord
  split
  next i _ => exact exec_keepsParameters i s
  next => exact .of_next rfl (State.emit_font ..) (State.emit_strictLowNibble ..)

/-- `Step` keeps the parameters in every mode, also when its fetch faults (R80). -/
theorem cpuStep_keepsParameters (s : State) : KeepsParameters s (cpuStep s) := by
  unfold cpuStep
  split
  case h_1 | h_2 => exact .of_next rfl rfl rfl
  case h_3 =>
    split
    next => exact .of_next rfl (State.raise_font ..) (State.raise_strictLowNibble ..)
    next w _ => exact (execWord_keepsParameters w s.begun.advance).of_same rfl rfl

/-- A key event keeps the parameters, whether or not it ends a wait (R147, R152). -/
theorem keyEvent_keepsParameters (k : KeyIndex) (pressed : Bool) (s : State) :
    KeepsParameters s (.next (keyEvent k pressed s)) := by
  unfold keyEvent
  dsimp only
  split <;> exact .of_next rfl rfl rfl

/-- A `Load` keeps the parameters: it is refused, or it writes memory (R191). -/
theorem load_keepsParameters (bytes : List Byte) (s : State) : KeepsParameters s (load bytes s) := by
  unfold load
  split
  · exact nofun
  · split
    · exact nofun
    · exact .of_next rfl rfl rfl

/-- Settles O54, by cases on the event: the CPU's step goes down to its instructions, and a reset takes both parameters
from the state that it resets. -/
theorem noTransitionChangesTheParameters : Obligations.NoTransitionChangesTheParameters := by
  intro e s
  change KeepsParameters s (transition e s)
  cases e with
  | step => exact cpuStep_keepsParameters s
  | tick | presentAck | reset => exact .of_next rfl rfl rfl
  | keyEvent k pressed => exact keyEvent_keepsParameters k pressed s
  | load bytes => exact load_keepsParameters bytes s
  | quit => exact nofun

end Sys2Proof.Machine
end

section
/-! Memory (spec/10_state.md R26): the canonical form of a memory is determined by its bytes. -/

namespace Sys2Proof.Machine

namespace Memory

variable {font : Font}

/-- The first cell of a canonical memory does not hold what reset left, so a canonical memory that reads the same there
lists a cell at or below that address. -/
theorem start_le_of_read_head {lo lo' a : Nat} {b : Byte} {m m' : Memory} (h : wfFrom font lo ((a, b) :: m) = true)
    (h' : wfFrom font lo' m' = true) (hread : read font ((a, b) :: m) a = read font m' a) : lo' ≤ a := by
  obtain ⟨-, -, changed, -⟩ := wfFrom_cons.1 h
  by_contra below
  rw [read_cons, if_pos rfl, read_below h' (by omega)] at hread
  exact changed hread

/-- Two canonical memories with the same first cell that read alike have tails that read alike. -/
theorem read_tail_eq {a : Nat} {b : Byte} {m m' : Memory} (h : wfFrom font (a + 1) m = true)
    (h' : wfFrom font (a + 1) m' = true) (hread : ∀ k, read font ((a, b) :: m) k = read font ((a, b) :: m') k) (k : Nat) :
    read font m k = read font m' k := by
  by_cases hk : k = a
  · rw [hk, read_below h (by omega), read_below h' (by omega)]
  · simpa [read_cons, hk] using hread k

/-- A canonical memory with a cell reads differently from the one that lists nothing. -/
theorem read_head_ne_read_nil {lo a : Nat} {b : Byte} {m : Memory} (h : wfFrom font lo ((a, b) :: m) = true) :
    read font ((a, b) :: m) a ≠ read font [] a := fun hread =>
  absurd (start_le_of_read_head (lo' := a + 1) h rfl hread) (by omega)

theorem eq_of_read_eq {lo lo' : Nat} {m m' : Memory} (h : wfFrom font lo m = true) (h' : wfFrom font lo' m' = true)
    (hread : ∀ k, read font m k = read font m' k) : m = m' := by
  induction m generalizing lo lo' m' with
  | nil =>
    cases m' with
    | nil => rfl
    | cons c' m' => exact absurd (hread c'.1).symm (read_head_ne_read_nil h')
  | cons c m ih =>
    cases m' with
    | nil => exact absurd (hread c.1) (read_head_ne_read_nil h)
    | cons c' m' =>
      obtain ⟨a, b⟩ := c
      obtain ⟨a', b'⟩ := c'
      obtain ⟨-, ha, hb, htail⟩ := wfFrom_cons.1 h
      obtain ⟨-, ha', hb', htail'⟩ := wfFrom_cons.1 h'
      have le : a' ≤ a := start_le_of_read_head h (wfFrom_cons.2 ⟨le_rfl, ha', hb', htail'⟩) (hread a)
      have ge : a ≤ a' := start_le_of_read_head h' (wfFrom_cons.2 ⟨le_rfl, ha, hb, htail⟩) (hread a').symm
      obtain rfl : a = a' := Nat.le_antisymm ge le
      obtain rfl : b = b' := by simpa [read_cons] using hread a
      rw [ih htail htail' (read_tail_eq htail htail' hread)]

end Memory

/-- Settles O40, by induction on the first list: the first cells of both lie at the same address, as each holds a byte that
reset did not leave there, and the tails read alike. -/
theorem canonicalMemoriesWithEqualBytesAreEqual : Obligations.CanonicalMemoriesWithEqualBytesAreEqual :=
  fun _ _ _ h h' hread => Memory.eq_of_read_eq h h' hread

end Sys2Proof.Machine
end

section
/-! Reset (spec/10_state.md R29). -/

namespace Sys2Proof.Machine

/-- Settles O7: each register, slot, pixel and key reads its replicated value, and memory, which lists nothing, reads as the
font with zeros above. -/
theorem resetLeavesTheListedValues : Obligations.ResetLeavesTheListedValues := by
  refine ⟨rfl, fun font strict => ?_⟩
  refine ⟨fun r => ?_, rfl, rfl, rfl, fun k => ?_, rfl, rfl, Display.pixel_clear, rfl, fun k => ?_, rfl, rfl, rfl, rfl, rfl,
    State.byte_resetWith_font font strict, fun a ha _ => State.byte_resetWith_zero font strict ha, rfl, rfl⟩
  · exact Vector.getElem_replicate r.isLt
  · exact Vector.getElem_replicate k.isLt
  · exact Vector.getElem_replicate k.isLt

theorem inv_resetWith (font : Font) (strict : Bool) : Inv (State.resetWith font strict) where
  memWf := rfl
  pcBound := by simp [State.resetWith]
  stackBound k := by simp [State.resetWith]
  waitFetched := nofun
  faultedIff := ⟨nofun, fun h => absurd rfl h⟩
  noRecord _ := ⟨rfl, rfl⟩
  faultPc := nofun
  fetchRecord := nofun
  loadClosed h := absurd rfl h

/-- Settles O8: the default parameters are one value of the parameters. -/
theorem resetMeetsTheInvariant : Obligations.ResetMeetsTheInvariant :=
  ⟨inv_resetWith _ _, inv_resetWith⟩

end Sys2Proof.Machine
end


section
/-! Fetch (spec/40_control_flow.md R80): what the CPU's step does in each mode, and the condition under which an instruction
raises no fault (spec/60_exceptions.md R162). -/

namespace Sys2Proof.Machine

variable {s : State}

/-! The CPU's step -/

theorem cpuStep_of_stopped (h : s.mode ≠ .normal) : cpuStep s = .next s := by
  unfold cpuStep
  split
  case h_1 | h_2 => rfl
  case h_3 running => exact absurd running h

theorem cpuStep_of_fetchFault (hmode : s.mode = .normal) (hpc : s.pc.toNat > 0xFFE) :
    cpuStep s = .next (s.begun.raise .fetchAddress s.pc 0) := by
  simp [cpuStep, hmode, Memory.fetch_eq_none.2 hpc]

theorem cpuStep_of_fetched (hmode : s.mode = .normal) (hpc : s.pc.toNat ≤ 0xFFE) :
    cpuStep s = execWord (wordOfBytes (s.byte s.pc.toNat) (s.byte (s.pc.toNat + 1))) s.begun.advance := by
  simp [cpuStep, hmode, Memory.fetch_eq_some.2 ⟨hpc, rfl⟩, State.byte]

/-- With an empty schedule the CPU moves (assumption log 14). -/
theorem step_of_unscheduled (h : s.schedule = []) : step s = cpuStep s := by
  simp [step, h]

theorem step_of_scheduled {e : Event} {es : List Event} (h : s.schedule = e :: es) :
    step s = transition e { s with schedule := es } := by
  simp [step, h]

/-! Key events (spec/44_timers_and_keys.md R147, R152) -/

theorem keyEvent_of_wake {k : KeyIndex} {pressed : Bool} (h : pressed = true ∧ s.mode = .waitingForKey) :
    keyEvent k pressed s = (s.setKey k pressed).wake k := if_pos h

theorem keyEvent_of_no_wake {k : KeyIndex} {pressed : Bool} (h : ¬ (pressed = true ∧ s.mode = .waitingForKey)) :
    keyEvent k pressed s = s.setKey k pressed := if_neg h

/-! The fault conditions -/

theorem faultCauseOf_call_eq_none {nnn : Addr} : faultCauseOf (.call nnn) s = none ↔ s.SP.val < 16 := by
  have := s.SP.isLt
  simp only [faultCauseOf, ite_eq_right_iff, reduceCtorEq, imp_false]
  omega

theorem faultCauseOf_ret_eq_none : faultCauseOf .ret s = none ↔ s.SP.val ≠ 0 := by
  simp [faultCauseOf]

theorem faultCauseOf_skp_eq_none {x : Reg} :
    faultCauseOf (.skp x) s = none ↔ ∃ k : KeyIndex, (s.getV x).toNat = k.val := by
  simp only [faultCauseOf, ite_eq_right_iff, reduceCtorEq, imp_false]
  exact ⟨fun h => ⟨⟨(s.getV x).toNat, by omega⟩, rfl⟩, fun ⟨k, hk⟩ => by omega⟩

theorem faultCauseOf_sknp_eq_none {x : Reg} :
    faultCauseOf (.sknp x) s = none ↔ ∃ k : KeyIndex, (s.getV x).toNat = k.val :=
  faultCauseOf_skp_eq_none

theorem faultCauseOf_drw_eq_none {x y : Reg} {n : Nibble} :
    faultCauseOf (.drw x y n) s = none ↔ n.toNat = 0 ∨ s.I.toNat + n.toNat ≤ 0x1000 := by
  simp only [faultCauseOf, ite_eq_right_iff, reduceCtorEq, imp_false]
  omega

theorem faultCauseOf_ldB_eq_none {x : Reg} : faultCauseOf (.ldB x) s = none ↔ s.I.toNat + 2 ≤ 0xFFF := by
  simp [faultCauseOf]

theorem faultCauseOf_storeRegs_eq_none {x : Reg} : faultCauseOf (.storeRegs x) s = none ↔ s.I.toNat + x.val ≤ 0xFFF := by
  simp [faultCauseOf]

theorem faultCauseOf_loadRegs_eq_none {x : Reg} : faultCauseOf (.loadRegs x) s = none ↔ s.I.toNat + x.val ≤ 0xFFF :=
  faultCauseOf_storeRegs_eq_none

/-- Under its listed condition an instruction raises the listed cause (R162). -/
theorem exec_of_fault {i : Instr} {cause : FaultCause} (h : faultCauseOf i s = some cause) :
    exec i s = raiseIn cause i s := by
  cases i with
  | call =>
    obtain ⟨full, ⟨⟩⟩ := Option.ite_none_right_eq_some.1 h
    exact execCall_of_full full
  | ret =>
    obtain ⟨empty, ⟨⟩⟩ := Option.ite_none_right_eq_some.1 h
    exact execRet_of_empty empty
  | skp =>
    obtain ⟨large, ⟨⟩⟩ := Option.ite_none_right_eq_some.1 h
    exact execSkp_of_large large
  | sknp =>
    obtain ⟨large, ⟨⟩⟩ := Option.ite_none_right_eq_some.1 h
    exact execSknp_of_large large
  | drw =>
    obtain ⟨outside, ⟨⟩⟩ := Option.ite_none_right_eq_some.1 h
    exact execDrw_of_outside (by omega)
  | ldB =>
    obtain ⟨outside, ⟨⟩⟩ := Option.ite_none_right_eq_some.1 h
    exact execLdB_of_outside outside
  | storeRegs =>
    obtain ⟨outside, ⟨⟩⟩ := Option.ite_none_right_eq_some.1 h
    exact execStoreRegs_of_outside outside
  | loadRegs =>
    obtain ⟨outside, ⟨⟩⟩ := Option.ite_none_right_eq_some.1 h
    exact execLoadRegs_of_outside outside
  | _ => nomatch h

/-- No instruction records a fetch fault, or a fault without a cause (R162). -/
theorem faultCauseOf_ne {i : Instr} {cause : FaultCause} (h : faultCauseOf i s = some cause) :
    cause ≠ .noFault ∧ cause ≠ .fetchAddress := by
  cases i with
  | call | ret | skp | sknp | drw | ldB | storeRegs | loadRegs =>
    obtain ⟨-, ⟨⟩⟩ := Option.ite_none_right_eq_some.1 h
    exact ⟨nofun, nofun⟩
  | _ => nomatch h

/-- Settles O12: the fault record is written, and besides it the step only closes the boot order. -/
theorem aFetchAboveFFERaisesFaultOne : Obligations.AFetchAboveFFERaisesFaultOne := by
  intro s hsched hmode hpc
  refine ⟨_, (step_of_unscheduled hsched).trans (cpuStep_of_fetchFault hmode hpc), rfl, rfl, rfl, rfl, rfl, ?_⟩
  intro p hp
  cases p <;> simp_all [Part.same, State.byte]

end Sys2Proof.Machine
end

section
/-! The parts of the state (spec/10_state.md): what each update of the state leaves unchanged, and from it what each
instruction does. -/

namespace Sys2Proof.Machine

variable {s : State}

/-! Frames of the updates -/

theorem keeps_registers {V : Vector Byte 16} : Keeps [.V] s { s with V } := by
  intro p hp; cases p <;> simp_all [Part.same, State.byte]

theorem keeps_setRegs {k : Nat} {bs : List Byte} : Keeps [.V] s (s.setRegs k bs) := by
  rw [State.setRegs_eq]; exact keeps_registers

theorem keeps_drawn_setV {x : Reg} {b : Byte} : Keeps [.V, .randCount] s (s.drawn.setV x b) := by
  intro p hp; cases p <;> simp_all [Part.same, State.byte]

theorem keeps_withSprite {x y : Reg} {bs : List Byte} : Keeps [.V, .disp, .dirty] s (s.withSprite x y bs) := by
  intro p hp; cases p <;> simp_all [Part.same, State.byte]

theorem keeps_clear : Keeps [.disp, .dirty] s { s with disp := Display.clear, dirty := true } := by
  intro p hp; cases p <;> simp_all [Part.same, State.byte]

theorem keeps_pc {a : Word} : Keeps [.pc] s { s with pc := a } := by
  intro p hp; cases p <;> simp_all [Part.same, State.byte]

theorem keeps_skipIf {c : Bool} : Keeps [.pc] s (s.skipIf c) := by
  rw [State.skipIf_eq]; exact keeps_pc

theorem keeps_pushed {stack : Vector Word 16} {sp : Fin 17} {a : Word} :
    Keeps [.pc, .SP, .stack] s { s with stack := stack, SP := sp, pc := a } := by
  intro p hp; cases p <;> simp_all [Part.same, State.byte]

theorem keeps_popped {sp : Fin 17} {a : Word} : Keeps [.pc, .SP] s { s with SP := sp, pc := a } := by
  intro p hp; cases p <;> simp_all [Part.same, State.byte]

theorem keeps_index {a : Word} : Keeps [.I] s { s with I := a } := by
  intro p hp; cases p <;> simp_all [Part.same, State.byte]

theorem keeps_delay {b : Byte} : Keeps [.DT] s { s with DT := b } := by
  intro p hp; cases p <;> simp_all [Part.same, State.byte]

theorem keeps_sound {b : Byte} : Keeps [.ST] s { s with ST := b } := by
  intro p hp; cases p <;> simp_all [Part.same, State.byte]

theorem keeps_memory {m : Memory} : Keeps [.mem] s { s with mem := m } := by
  intro p hp; cases p <;> simp_all [Part.same]

theorem keeps_wait {x : Reg} {a : Word} :
    Keeps [.pc, .mode, .waitReg] s { s with waitReg := x, mode := .waitingForKey, pc := a } := by
  intro p hp; cases p <;> simp_all [Part.same, State.byte]

/-- An outcome that is known carries its frame to every next state it can answer. -/
theorem keeps_of_next {r : Result} {l : List Part} {t u : State} (ht : r = .next t) (hu : r = .next u) (frame : Keeps l s u) :
    Keeps l s t := by
  cases ht.symm.trans hu
  exact frame

/-- Settles O56, by cases on the instruction: without a fault it makes one update of the state, whose frame is the list. -/
theorem eachInstructionChangesOnlyItsParts : Obligations.EachInstructionChangesOnlyItsParts := by
  intro i s t ht noFault
  cases i with
  | ldImm | addImm | ldReg | orReg | andReg | xorReg | ldVxDT => exact keeps_of_next ht rfl keeps_registers
  | addReg | subReg | shr | subnReg | shl => exact keeps_of_next ht rfl keeps_registers
  | rnd => exact keeps_of_next ht rfl keeps_drawn_setV
  | seImm | sneImm | seReg | sneReg => exact keeps_of_next ht rfl keeps_skipIf
  | jp | jpV0 => exact keeps_of_next ht rfl keeps_pc
  | ldI | addI | ldF => exact keeps_of_next ht rfl keeps_index
  | cls => exact keeps_of_next ht rfl keeps_clear
  | ldDTVx => exact keeps_of_next ht rfl keeps_delay
  | ldSTVx => exact keeps_of_next ht rfl keeps_sound
  | ldVxK => exact keeps_of_next ht rfl keeps_wait
  | skp =>
    obtain ⟨k, hk⟩ := faultCauseOf_skp_eq_none.1 noFault
    exact keeps_of_next ht (execSkp_of_key hk) keeps_skipIf
  | sknp =>
    obtain ⟨k, hk⟩ := faultCauseOf_sknp_eq_none.1 noFault
    exact keeps_of_next ht (execSknp_of_key hk) keeps_skipIf
  | call => exact keeps_of_next ht (execCall_of_room (faultCauseOf_call_eq_none.1 noFault)) keeps_pushed
  | ret => exact keeps_of_next ht (execRet_of_nonempty (faultCauseOf_ret_eq_none.1 noFault)) keeps_popped
  | ldB => exact keeps_of_next ht (execLdB_of_inside (faultCauseOf_ldB_eq_none.1 noFault)) keeps_memory
  | storeRegs =>
    exact keeps_of_next ht (execStoreRegs_of_inside (faultCauseOf_storeRegs_eq_none.1 noFault)) keeps_memory
  | loadRegs => exact keeps_of_next ht (execLoadRegs_of_inside (faultCauseOf_loadRegs_eq_none.1 noFault)) keeps_setRegs
  | drw => exact keeps_of_next ht (execDrw_of_inside (faultCauseOf_drw_eq_none.1 noFault)) keeps_withSprite

end Sys2Proof.Machine
end

section
/-! General registers (spec/10_state.md R11 to R13): which of them an instruction writes. -/

namespace Sys2Proof.Machine

variable {s t : State} {i : Instr}

/-- A flag is stored as 0 or 1 (R11). -/
theorem flagByte_eq_zero_or_one (f : Bool) : flagByte f = 0 ∨ flagByte f = 1 := by
  cases f <;> simp [flagByte]

/-- Without a fault, a register that is neither a destination nor the flag of a flag writer reads as before (R12, R13): it is
another one than those written, and an instruction that has none of either leaves the whole register file. -/
theorem getV_eq_of_not_written (ht : exec i s = .next t) (noFault : faultCauseOf i s = none) {r : Reg}
    (notDest : isDestReg i r = false) (notFlag : r = VF → writesFlag i = false) : t.getV r = s.getV r := by
  have frame := eachInstructionChangesOnlyItsParts i s t ht noFault
  cases i with
  | ldImm x | addImm x | ldReg x | orReg x | andReg x | xorReg x | rnd x | ldVxDT x =>
    cases ht
    exact State.getV_setV_other _ _ (beq_eq_false_iff_ne.1 notDest)
  | addReg x | subReg x | shr x | subnReg x | shl x =>
    cases ht
    have hVF : r ≠ VF := fun h => nomatch notFlag h
    rw [State.getV_setResultFlag, if_neg hVF, if_neg (beq_eq_false_iff_ne.1 notDest)]
  | drw x y n =>
    cases ht.symm.trans (execDrw_of_inside (faultCauseOf_drw_eq_none.1 noFault))
    have hVF : r ≠ VF := fun h => nomatch notFlag h
    rw [State.getV_withSprite, if_neg hVF]
  | loadRegs x =>
    cases ht.symm.trans (execLoadRegs_of_inside (faultCauseOf_loadRegs_eq_none.1 noFault))
    have above : ¬ r.val ≤ x.val := of_decide_eq_false notDest
    rw [State.getV_setRegs _ _ _ (by simp), dif_neg (by simp; omega)]
  | _ => exact State.getV_congr (frame .V (by simp [partsWritten])) r

/-- What a flag writer leaves in `VF` is a flag, also when `VF` is its destination (D6). -/
theorem getV_VF_of_writesFlag (ht : exec i s = .next t) (noFault : faultCauseOf i s = none) (writes : writesFlag i = true) :
    ∃ f, t.getV VF = flagByte f := by
  cases i with
  | addReg | subReg | shr | subnReg | shl =>
    cases ht
    exact ⟨_, State.getV_setV_same ..⟩
  | drw =>
    cases ht.symm.trans (execDrw_of_inside (faultCauseOf_drw_eq_none.1 noFault))
    exact ⟨_, (State.getV_withSprite ..).trans (if_pos rfl)⟩
  | _ => nomatch writes

/-- Settles O32: a fault writes no register at all, and without one the destination and the flag are all that is written. -/
theorem registersAreWrittenOnlyAsListed : Obligations.RegistersAreWrittenOnlyAsListed := by
  intro i s t ht
  refine ⟨fun r notDest notFlag => ?_, fun writes noFault => ?_⟩
  · cases hf : faultCauseOf i s with
    | none => exact getV_eq_of_not_written ht hf notDest notFlag
    | some cause =>
      cases ht.symm.trans (exec_of_fault hf)
      exact State.getV_congr (State.raise_V ..) r
  · obtain ⟨f, hf⟩ := getV_VF_of_writesFlag ht noFault writes
    rw [hf]
    exact flagByte_eq_zero_or_one f

end Sys2Proof.Machine
end

section
/-! The unread parts (spec/10_state.md R23, spec/44_timers_and_keys.md R142, R145): `dirty`, the sound counter and the output
pulses have no effect on the rest of a run. -/

namespace Sys2Proof.Machine

/-- The state with other contents of the three parts that nothing reads. -/
def State.withUnread (s : State) (dirty : Bool) (sound : Byte) (outputs : List Output) : State :=
  { s with dirty, ST := sound, outputs }

/-- If the first outcome is a next state, the second is one too, and they differ in the unread parts at most. -/
def AgreeButUnread (r r' : Result) : Prop :=
  ∀ t, r = .next t → ∃ dirty sound outputs, r' = .next (t.withUnread dirty sound outputs)

variable {s : State} {dirty : Bool} {sound : Byte} {outputs : List Output}

theorem AgreeButUnread.of_next {r r' : Result} {t : State} (h : r = .next t)
    (h' : r' = .next (t.withUnread dirty sound outputs)) : AgreeButUnread r r' := by
  rintro u hu
  cases h.symm.trans hu
  exact ⟨_, _, _, h'⟩

theorem AgreeButUnread.of_skipIf {r r' : Result} {c : Bool} (h : r = .next (s.skipIf c))
    (h' : r' = .next ((s.withUnread dirty sound outputs).skipIf c)) : AgreeButUnread r r' := by
  rw [State.skipIf_eq] at h h'
  exact .of_next h h'

theorem State.setRegs_withUnread (k : Nat) (bs : List Byte) :
    (s.withUnread dirty sound outputs).setRegs k bs = (s.setRegs k bs).withUnread dirty sound outputs := by
  induction bs generalizing s k with
  | nil => rfl
  | cons b bs ih => exact ih (s := s.setV (Fin.ofNat 16 k) b) (k + 1)

theorem faultCauseOf_withUnread (i : Instr) : faultCauseOf i (s.withUnread dirty sound outputs) = faultCauseOf i s := by
  cases i <;> rfl

/-- No instruction reads an unread part (R23, R142; G3, assumption log 19). -/
theorem exec_agreeButUnread (i : Instr) : AgreeButUnread (exec i s) (exec i (s.withUnread dirty sound outputs)) := by
  cases hf : faultCauseOf i s with
  | some cause => exact .of_next (exec_of_fault hf) (exec_of_fault ((faultCauseOf_withUnread i).trans hf))
  | none =>
    cases i with
    | seImm | sneImm | seReg | sneReg => exact .of_skipIf rfl rfl
    | skp =>
      obtain ⟨k, hk⟩ := faultCauseOf_skp_eq_none.1 hf
      exact .of_skipIf (execSkp_of_key hk) (execSkp_of_key (s := s.withUnread dirty sound outputs) hk)
    | sknp =>
      obtain ⟨k, hk⟩ := faultCauseOf_sknp_eq_none.1 hf
      exact .of_skipIf (execSknp_of_key hk) (execSknp_of_key (s := s.withUnread dirty sound outputs) hk)
    | call =>
      have room := faultCauseOf_call_eq_none.1 hf
      exact .of_next (execCall_of_room room)
        (execCall_of_room (s := s.withUnread dirty sound outputs) room)
    | ret =>
      have nonempty := faultCauseOf_ret_eq_none.1 hf
      exact .of_next (execRet_of_nonempty nonempty)
        (execRet_of_nonempty (s := s.withUnread dirty sound outputs) nonempty)
    | ldB =>
      have inside := faultCauseOf_ldB_eq_none.1 hf
      exact .of_next (execLdB_of_inside inside)
        (execLdB_of_inside (s := s.withUnread dirty sound outputs) inside)
    | storeRegs =>
      have inside := faultCauseOf_storeRegs_eq_none.1 hf
      exact .of_next (execStoreRegs_of_inside inside)
        (execStoreRegs_of_inside (s := s.withUnread dirty sound outputs) inside)
    | loadRegs =>
      have inside := faultCauseOf_loadRegs_eq_none.1 hf
      exact .of_next (execLoadRegs_of_inside inside)
        ((execLoadRegs_of_inside (s := s.withUnread dirty sound outputs) inside).trans
          (congrArg _ (State.setRegs_withUnread ..)))
    | drw =>
      have inside := faultCauseOf_drw_eq_none.1 hf
      exact .of_next (execDrw_of_inside inside)
        (execDrw_of_inside (s := s.withUnread dirty sound outputs) inside)
    | _ => exact .of_next rfl rfl

/-- A fetched word, known or unknown: the `Diag` of an unknown one is added to an output record that nothing reads. -/
theorem execWord_agreeButUnread (w : Word) :
    AgreeButUnread (execWord w s) (execWord w (s.withUnread dirty sound outputs)) := by
  unfold execWord
  dsimp only [State.withUnread]
  split
  next i _ => exact exec_agreeButUnread i
  next => exact .of_next rfl rfl

theorem cpuStep_agreeButUnread : AgreeButUnread (cpuStep s) (cpuStep (s.withUnread dirty sound outputs)) := by
  by_cases running : s.mode = .normal
  · rcases Nat.lt_or_ge 0xFFE s.pc.toNat with outside | inside
    · exact .of_next (cpuStep_of_fetchFault running outside)
        (cpuStep_of_fetchFault (s := s.withUnread dirty sound outputs) running outside)
    · rw [cpuStep_of_fetched running inside, cpuStep_of_fetched (s := s.withUnread dirty sound outputs) running inside]
      exact execWord_agreeButUnread (s := s.begun.advance) _
  · exact .of_next (cpuStep_of_stopped running) (cpuStep_of_stopped (s := s.withUnread dirty sound outputs) running)

theorem keyEvent_agreeButUnread (k : KeyIndex) (pressed : Bool) :
    AgreeButUnread (.next (keyEvent k pressed s)) (.next (keyEvent k pressed (s.withUnread dirty sound outputs))) := by
  by_cases wakes : pressed = true ∧ s.mode = .waitingForKey
  · rw [keyEvent_of_wake wakes, keyEvent_of_wake (s := s.withUnread dirty sound outputs) wakes]
    exact .of_next rfl rfl
  · rw [keyEvent_of_no_wake wakes, keyEvent_of_no_wake (s := s.withUnread dirty sound outputs) wakes]
    exact .of_next rfl rfl

theorem load_agreeButUnread (bytes : List Byte) :
    AgreeButUnread (load bytes s) (load bytes (s.withUnread dirty sound outputs)) := by
  unfold load
  dsimp only [State.withUnread]
  split
  · exact nofun
  · split
    · exact nofun
    · exact .of_next rfl rfl

/-- No transition reads an unread part: a tick and an acknowledgement write them only. -/
theorem transition_agreeButUnread (e : Event) :
    AgreeButUnread (transition e s) (transition e (s.withUnread dirty sound outputs)) := by
  cases e with
  | step => exact cpuStep_agreeButUnread
  | tick | presentAck | reset => exact .of_next rfl rfl
  | keyEvent k pressed => exact keyEvent_agreeButUnread k pressed
  | load bytes => exact load_agreeButUnread bytes
  | quit => exact nofun

theorem runEvents_agreeButUnread (es : List Event) :
    AgreeButUnread (runEvents es s) (runEvents es (s.withUnread dirty sound outputs)) := by
  induction es generalizing s dirty sound outputs with
  | nil => exact .of_next rfl rfl
  | cons e es ih =>
    intro t ht
    simp only [runEvents] at ht ⊢
    cases hu : transition e s with
    | next u =>
      obtain ⟨_, _, _, hu'⟩ := transition_agreeButUnread (dirty := dirty) (sound := sound) (outputs := outputs) e u hu
      rw [hu] at ht
      rw [hu']
      exact ih t ht
    | fault | refused => rw [hu] at ht; nomatch ht

/-- Settles O60, by induction on the events: after each transition the two runs differ in the unread parts at most. -/
theorem dirtyAndSoundHaveNoEffectOnExecution : Obligations.DirtyAndSoundHaveNoEffectOnExecution :=
  fun es _ t _ _ _ ht => runEvents_agreeButUnread es t ht

end Sys2Proof.Machine
end

section
/-! The invariant: each update of the state keeps it under the conditions in which an instruction or an event makes it. -/

namespace Sys2Proof.Machine

variable {s t : State}

/-! Updates that any state may take -/

theorem Inv.setV (h : Inv s) (x : Reg) (b : Byte) : Inv (s.setV x b) := { h with }

theorem Inv.setResultFlag (h : Inv s) (x : Reg) (b : Byte) (f : Bool) : Inv (s.setResultFlag x b f) := { h with }

theorem Inv.setRegs (h : Inv s) (k : Nat) (bs : List Byte) : Inv (s.setRegs k bs) := by
  rw [State.setRegs_eq]
  exact { h with }

theorem Inv.withSprite (h : Inv s) (x y : Reg) (bs : List Byte) : Inv (s.withSprite x y bs) := { h with }

theorem Inv.withMem (h : Inv s) {m : Memory} (hm : Memory.wf s.font m = true) : Inv { s with mem := m } :=
  { h with memWf := hm }

theorem Inv.resetMachine : Inv s.resetMachine := { inv_resetWith s.font s.strictLowNibble with }

/-! A tick, a change of the latch, an acknowledgement and a move of the schedule touch nothing that the invariant speaks
of. -/

theorem Inv.tick (h : Inv s) : Inv (tick s) := { h with }

theorem Inv.setKey (h : Inv s) (k : KeyIndex) (pressed : Bool) : Inv (s.setKey k pressed) := { h with }

theorem Inv.presentAck (h : Inv s) : Inv (presentAck s) := { h with }

theorem Inv.withSchedule (h : Inv s) (es : List Event) : Inv { s with schedule := es } := { h with }

/-- No fault is recorded outside `Faulted` (R161). -/
theorem Inv.noFault (h : Inv s) (hmode : s.mode ≠ .faulted) : s.faultCause = .noFault :=
  not_not.1 fun hc => hmode (h.faultedIff.2 hc)

/-- The end of a wait: `pc` is a fetched address, so the deferred advance stays in range (R152). -/
theorem Inv.wake (h : Inv s) (hmode : s.mode = .waitingForKey) (k : KeyIndex) : Inv (s.wake k) :=
  have hpc : s.pc.toNat ≤ 0xFFE := h.waitFetched hmode
  have hcause : s.faultCause = .noFault := h.noFault (by simp [hmode])
  { h with
    pcBound := by simp; omega
    waitFetched := nofun
    faultedIff := ⟨nofun, fun hc => absurd hcause hc⟩
    faultPc := nofun
    loadClosed := fun hn => absurd rfl hn }

theorem Inv.load (h : Inv s) {bytes : List Byte} (ht : load bytes s = .next t) : Inv t := by
  unfold Machine.load at ht
  split at ht
  · nomatch ht
  · split at ht
    · nomatch ht
    next fits =>
      cases ht
      have hlen : bytes.length ≤ Config.maxImage := of_decide_eq_true (Bool.of_not_eq_false fits)
      have hend : Config.loadBase + bytes.length ≤ 0x1000 := Nat.add_le_add_left hlen Config.loadBase
      exact { h with memWf := Memory.wf_writeBytes h.memWf hend, loadClosed := fun _ => rfl }

/-! The state in which an instruction is executed -/

/-- What a fetch leaves of a state that meets the invariant: the CPU runs, no `Load` may follow, and `pc` is a fetched
address plus 2 (R80). -/
structure Executing (s : State) : Prop extends Inv s where
  running : s.mode = .normal
  loadDone : s.loadAllowed = false
  pcLower : 2 ≤ s.pc.toNat
  pcUpper : s.pc.toNat ≤ 0x1000

theorem Inv.executing (h : Inv s) (hmode : s.mode = .normal) (hpc : s.pc.toNat ≤ 0xFFE) : Executing s.begun.advance :=
  have hadd : (s.pc + 2).toNat = s.pc.toNat + 2 := by simp; omega
  { h with
    pcBound := by simp only [State.advance_pc, State.begun_pc]; omega
    waitFetched := fun hw => absurd (hmode.symm.trans hw) nofun
    faultPc := fun hf => absurd (hmode.symm.trans hf) nofun
    loadClosed := fun _ => rfl
    running := hmode
    loadDone := rfl
    pcLower := by simp only [State.advance_pc, State.begun_pc]; omega
    pcUpper := by simp only [State.advance_pc, State.begun_pc]; omega }

/-- A fault, of the fetch or of the instruction: the record and the mode change together (R161, R163). -/
theorem Inv.raise (h : Inv s) (hload : s.loadAllowed = false) {cause : FaultCause} {addr op : Word}
    (hcause : cause ≠ .noFault) (haddr : addr.toNat ≤ 0x10FE)
    (hfetch : cause = .fetchAddress → addr.toNat > 0xFFE ∧ op = 0) : Inv (s.raise cause addr op) :=
  { h with
    pcBound := haddr
    waitFetched := nofun
    faultedIff := ⟨fun _ => hcause, fun _ => rfl⟩
    noRecord := fun hc => absurd hc hcause
    faultPc := fun _ => rfl
    fetchRecord := hfetch
    loadClosed := fun _ => hload }

namespace Executing

theorem jump (h : Executing s) {a : Word} (ha : a.toNat ≤ 0x10FE) : Inv (s.jump a) :=
  { h.toInv with
    pcBound := ha
    waitFetched := fun hw => absurd (h.running.symm.trans hw) nofun
    faultPc := fun hf => absurd (h.running.symm.trans hf) nofun }

theorem skipIf (h : Executing s) (c : Bool) : Inv (s.skipIf c) := by
  have hpc := h.pcUpper
  cases c with
  | false => exact h.toInv
  | true => exact h.jump (by simp; omega)

/-- The wait deferred the advance: `pc` is the address of the fetch (D9). -/
theorem wait (h : Executing s) (x : Reg) : Inv { s with waitReg := x, mode := .waitingForKey, pc := s.instrAddr } :=
  have hpc : s.instrAddr.toNat = s.pc.toNat - 2 := State.toNat_instrAddr h.pcLower
  have hupper := h.pcUpper
  have hcause : s.faultCause = .noFault := h.noFault (by simp [h.running])
  { h.toInv with
    pcBound := by dsimp only; omega
    waitFetched := fun _ => by dsimp only; omega
    faultedIff := ⟨nofun, fun hc => absurd hcause hc⟩
    faultPc := nofun
    loadClosed := fun _ => h.loadDone }

/-- A push of the advanced `pc`, which is at most 0x1000 (R83). -/
theorem push (h : Executing s) (slot : Fin 16) (sp : Fin 17) :
    Executing { s with stack := s.stack.set slot.val s.pc, SP := sp } :=
  { h with
    stackBound := fun k => by
      have hpc := h.pcUpper
      have hk := h.stackBound k
      simp only [Fin.getElem_fin, Vector.getElem_set] at hk ⊢
      split <;> assumption }

theorem raiseIn (h : Executing s) {i : Instr} {cause : FaultCause} (hf : faultCauseOf i s = some cause) :
    Inv (s.raise cause s.instrAddr (encode i)) := by
  have hpc : s.instrAddr.toNat = s.pc.toNat - 2 := State.toNat_instrAddr h.pcLower
  have hupper := h.pcUpper
  obtain ⟨hcause, notFetch⟩ := faultCauseOf_ne hf
  exact h.raise h.loadDone hcause (by omega) fun hc => absurd hc notFetch

/-- Every instruction keeps the invariant: the jump of `BNNN` goes furthest, to at most 0xFFF + 0xFF (R85). -/
theorem exec {i : Instr} (h : Executing s) (ht : exec i s = .next t) : Inv t := by
  cases hf : faultCauseOf i s with
  | some cause =>
    cases ht.symm.trans (exec_of_fault hf)
    exact h.raiseIn hf
  | none =>
    cases i with
    | ldImm | addImm | ldReg | orReg | andReg | xorReg | ldVxDT => cases ht; exact h.setV ..
    | addReg | subReg | shr | subnReg | shl => cases ht; exact h.setResultFlag ..
    | rnd | cls | ldI | addI | ldF | ldDTVx | ldSTVx => cases ht; exact { h.toInv with }
    | seImm | sneImm | seReg | sneReg => cases ht; exact h.skipIf _
    | skp =>
      obtain ⟨k, hk⟩ := faultCauseOf_skp_eq_none.1 hf
      cases ht.symm.trans (execSkp_of_key hk)
      exact h.skipIf _
    | sknp =>
      obtain ⟨k, hk⟩ := faultCauseOf_sknp_eq_none.1 hf
      cases ht.symm.trans (execSknp_of_key hk)
      exact h.skipIf _
    | jp nnn =>
      cases ht
      exact h.jump (by rw [toNat_zextAddr]; omega)
    | jpV0 nnn =>
      cases ht
      exact h.jump (by rw [BitVec.toNat_add, toNat_zextAddr, toNat_zextByte]; omega)
    | call nnn =>
      have room := faultCauseOf_call_eq_none.1 hf
      cases ht.symm.trans (execCall_of_room room)
      exact (h.push ⟨s.SP.val, room⟩ _).jump (by rw [toNat_zextAddr]; omega)
    | ret =>
      cases ht.symm.trans (execRet_of_nonempty (faultCauseOf_ret_eq_none.1 hf))
      have hslot : s.stack[s.SP.val - 1].toNat ≤ 0x1000 := h.stackBound ⟨s.SP.val - 1, by omega⟩
      exact { h.jump (hslot.trans (by decide)) with }
    | ldVxK x => cases ht; exact h.wait x
    | ldB x =>
      have inside := faultCauseOf_ldB_eq_none.1 hf
      cases ht.symm.trans (execLdB_of_inside inside)
      exact h.withMem (Memory.wf_writeBytes h.memWf (by simp [bcdDigits]; omega))
    | storeRegs x =>
      have inside := faultCauseOf_storeRegs_eq_none.1 hf
      cases ht.symm.trans (execStoreRegs_of_inside inside)
      exact h.withMem (Memory.wf_writeBytes h.memWf (by simp; omega))
    | loadRegs x =>
      cases ht.symm.trans (execLoadRegs_of_inside (faultCauseOf_loadRegs_eq_none.1 hf))
      exact h.setRegs ..
    | drw x y n =>
      cases ht.symm.trans (execDrw_of_inside (faultCauseOf_drw_eq_none.1 hf))
      exact h.withSprite ..

theorem execWord {w : Word} (h : Executing s) (ht : execWord w s = .next t) : Inv t := by
  unfold Machine.execWord at ht
  split at ht
  next => exact h.exec ht
  next => cases ht; exact { h.toInv with }

end Executing

/-! The agents -/

theorem Inv.cpuStep (h : Inv s) (ht : cpuStep s = .next t) : Inv t := by
  by_cases running : s.mode = .normal
  · rcases Nat.lt_or_ge 0xFFE s.pc.toNat with outside | inside
    · cases ht.symm.trans (cpuStep_of_fetchFault running outside)
      have hbegun : Inv s.begun := { h with loadClosed := fun _ => rfl }
      exact hbegun.raise rfl nofun h.pcBound fun _ => ⟨outside, rfl⟩
    · rw [cpuStep_of_fetched running inside] at ht
      exact (h.executing running inside).execWord ht
  · cases ht.symm.trans (cpuStep_of_stopped running)
    exact h

theorem Inv.keyEvent (h : Inv s) (k : KeyIndex) (pressed : Bool) : Inv (keyEvent k pressed s) := by
  by_cases wakes : pressed = true ∧ s.mode = .waitingForKey
  · rw [keyEvent_of_wake wakes]
    exact (h.setKey k pressed).wake wakes.2 k
  · rw [keyEvent_of_no_wake wakes]
    exact h.setKey k pressed

theorem Inv.transition {e : Event} (h : Inv s) (ht : transition e s = .next t) : Inv t := by
  cases e with
  | step => exact h.cpuStep ht
  | tick => cases ht; exact h.tick
  | keyEvent k pressed => cases ht; exact h.keyEvent k pressed
  | presentAck => cases ht; exact h.presentAck
  | load => exact h.load ht
  | reset => cases ht; exact Inv.resetMachine
  | quit => nomatch ht

/-- Settles O9: the agent that moves is the CPU, with an empty schedule, or the one of the first event. -/
theorem everyStepKeepsTheInvariant : Obligations.EveryStepKeepsTheInvariant := by
  intro s t h ht
  cases hs : s.schedule with
  | nil => exact h.cpuStep ((step_of_unscheduled hs).symm.trans ht)
  | cons e es => exact (h.withSchedule es).transition ((step_of_scheduled hs).symm.trans ht)

end Sys2Proof.Machine
end

section
/-! The schedule (spec/20_memory.md R48, spec/70_reset_and_hazards.md R200; assumption log 14): no transition reads or writes
it, so a machine that steps through its schedule goes through the same states as a run of the events. -/

namespace Sys2Proof.Machine

/-- The state with another schedule. -/
def State.withSchedule (s : State) (es : List Event) : State := { s with schedule := es }

@[simp] theorem State.withSchedule_schedule (s : State) (es : List Event) : (s.withSchedule es).schedule = es := rfl

/-- The outcome with another schedule in the next state, if it is one. -/
def withScheduleNext (es : List Event) : Result → Result
  | .next t => .next (t.withSchedule es)
  | .fault r => .fault r
  | .refused r => .refused r

variable {s : State} {es : List Event}

theorem State.withSchedule_self (h : s.schedule = es) : s.withSchedule es = s := by
  subst h; rfl

theorem withScheduleNext_of_next {r r' : Result} {t : State} (h : r = .next t) (h' : r' = .next (t.withSchedule es)) :
    r' = withScheduleNext es r := by
  rw [h, h', withScheduleNext]

theorem State.skipIf_withSchedule (c : Bool) : (s.withSchedule es).skipIf c = (s.skipIf c).withSchedule es := by
  cases c <;> rfl

theorem State.setRegs_withSchedule (k : Nat) (bs : List Byte) :
    (s.withSchedule es).setRegs k bs = (s.setRegs k bs).withSchedule es := by
  induction bs generalizing s k with
  | nil => rfl
  | cons b bs ih => exact ih (s := s.setV (Fin.ofNat 16 k) b) (k + 1)

theorem faultCauseOf_withSchedule (i : Instr) : faultCauseOf i (s.withSchedule es) = faultCauseOf i s := by
  cases i <;> rfl

/-- No instruction reads or writes the schedule: without a fault it makes one update of other parts, and its fault condition
is about other parts. -/
theorem exec_withSchedule (i : Instr) : exec i (s.withSchedule es) = withScheduleNext es (exec i s) := by
  cases hf : faultCauseOf i s with
  | some cause => exact withScheduleNext_of_next (exec_of_fault hf) (exec_of_fault ((faultCauseOf_withSchedule i).trans hf))
  | none =>
    have hf' := (faultCauseOf_withSchedule (es := es) i).trans hf
    cases i with
    | seImm | sneImm | seReg | sneReg => exact congrArg Host.Outcome.next (State.skipIf_withSchedule _)
    | skp =>
      obtain ⟨k, hk⟩ := faultCauseOf_skp_eq_none.1 hf
      exact withScheduleNext_of_next (execSkp_of_key hk)
        ((execSkp_of_key (s := s.withSchedule es) hk).trans (congrArg _ (State.skipIf_withSchedule _)))
    | sknp =>
      obtain ⟨k, hk⟩ := faultCauseOf_sknp_eq_none.1 hf
      exact withScheduleNext_of_next (execSknp_of_key hk)
        ((execSknp_of_key (s := s.withSchedule es) hk).trans (congrArg _ (State.skipIf_withSchedule _)))
    | call =>
      exact withScheduleNext_of_next (execCall_of_room (faultCauseOf_call_eq_none.1 hf))
        (execCall_of_room (faultCauseOf_call_eq_none.1 hf'))
    | ret =>
      exact withScheduleNext_of_next (execRet_of_nonempty (faultCauseOf_ret_eq_none.1 hf))
        (execRet_of_nonempty (faultCauseOf_ret_eq_none.1 hf'))
    | ldB =>
      exact withScheduleNext_of_next (execLdB_of_inside (faultCauseOf_ldB_eq_none.1 hf))
        (execLdB_of_inside (faultCauseOf_ldB_eq_none.1 hf'))
    | storeRegs =>
      exact withScheduleNext_of_next (execStoreRegs_of_inside (faultCauseOf_storeRegs_eq_none.1 hf))
        (execStoreRegs_of_inside (faultCauseOf_storeRegs_eq_none.1 hf'))
    | loadRegs =>
      exact withScheduleNext_of_next (execLoadRegs_of_inside (faultCauseOf_loadRegs_eq_none.1 hf))
        ((execLoadRegs_of_inside (faultCauseOf_loadRegs_eq_none.1 hf')).trans
          (congrArg _ (State.setRegs_withSchedule ..)))
    | drw =>
      exact withScheduleNext_of_next (execDrw_of_inside (faultCauseOf_drw_eq_none.1 hf))
        (execDrw_of_inside (faultCauseOf_drw_eq_none.1 hf'))
    | _ => rfl

theorem execWord_withSchedule (w : Word) : execWord w (s.withSchedule es) = withScheduleNext es (execWord w s) := by
  unfold execWord
  dsimp only [State.withSchedule]
  split
  next i _ => exact exec_withSchedule i
  next => rfl

theorem cpuStep_withSchedule : cpuStep (s.withSchedule es) = withScheduleNext es (cpuStep s) := by
  by_cases running : s.mode = .normal
  · rcases Nat.lt_or_ge 0xFFE s.pc.toNat with outside | inside
    · exact withScheduleNext_of_next (cpuStep_of_fetchFault running outside)
        (cpuStep_of_fetchFault (s := s.withSchedule es) running outside)
    · rw [cpuStep_of_fetched running inside, cpuStep_of_fetched (s := s.withSchedule es) running inside]
      exact execWord_withSchedule (s := s.begun.advance) _
  · exact withScheduleNext_of_next (cpuStep_of_stopped running) (cpuStep_of_stopped (s := s.withSchedule es) running)

theorem keyEvent_withSchedule (k : KeyIndex) (pressed : Bool) :
    keyEvent k pressed (s.withSchedule es) = (keyEvent k pressed s).withSchedule es := by
  by_cases wakes : pressed = true ∧ s.mode = .waitingForKey
  · rw [keyEvent_of_wake wakes, keyEvent_of_wake (s := s.withSchedule es) wakes]
    rfl
  · rw [keyEvent_of_no_wake wakes, keyEvent_of_no_wake (s := s.withSchedule es) wakes]
    rfl

theorem load_withSchedule (bytes : List Byte) : load bytes (s.withSchedule es) = withScheduleNext es (load bytes s) := by
  unfold load
  rw [apply_ite (withScheduleNext es), apply_ite (withScheduleNext es)]
  rfl

/-- No transition reads or writes the schedule, a reset included (assumption log 22). -/
theorem transition_withSchedule (e : Event) :
    transition e (s.withSchedule es) = withScheduleNext es (transition e s) := by
  cases e with
  | step => exact cpuStep_withSchedule
  | tick | presentAck | reset | quit => rfl
  | keyEvent k pressed => exact congrArg Host.Outcome.next (keyEvent_withSchedule k pressed)
  | load bytes => exact load_withSchedule bytes

/-- The schedule after a transition is the one before it. -/
theorem schedule_eq_of_transition {e : Event} {t : State} (ht : transition e s = .next t) : t.schedule = s.schedule := by
  have h := transition_withSchedule (s := s) (es := s.schedule) e
  rw [State.withSchedule_self rfl, ht, withScheduleNext, Host.Outcome.next.injEq] at h
  rw [h, State.withSchedule_schedule]

/-- A step with a scheduled event performs it in the state without it, and leaves the rest of the schedule. -/
theorem step_withSchedule_cons (e : Event) : step (s.withSchedule (e :: es)) = withScheduleNext es (transition e s) :=
  (step_of_scheduled rfl).trans (transition_withSchedule (s := s) e)

/-- Settles O14, by induction on the events: a step performs the first of them and leaves the others as the schedule of the
next state. -/
theorem aScheduleRunsItsEventsInOrder : Obligations.AScheduleRunsItsEventsInOrder := by
  intro es
  induction es with
  | nil => exact fun s unscheduled => congrArg Host.Outcome.next (State.withSchedule_self unscheduled)
  | cons e es ih =>
    intro s unscheduled
    have first : Sys2Proof.core.step { s with schedule := e :: es } = withScheduleNext es (transition e s) :=
      step_withSchedule_cons e
    simp only [List.length_cons, Host.Core.run, first, runEvents]
    cases ht : transition e s with
    | next t => exact ih t ((schedule_eq_of_transition ht).trans unscheduled)
    | fault | refused => rfl

end Sys2Proof.Machine
end

section
/-! The store that is fetched (spec/20_memory.md R51, R56) and the data access that leaves memory (R53, R163). -/

namespace Sys2Proof.Machine

variable {s : State}

/-- A raised fault changes the record, the mode and `pc` alone (R161, R163). -/
theorem faultedAs_raise (s : State) (cause : FaultCause) (i : Instr) :
    FaultedAs cause i s (s.raise cause s.instrAddr (encode i)) := by
  refine ⟨rfl, rfl, rfl, rfl, rfl, fun p hp => ?_⟩
  cases p <;> simp_all [Part.same, State.byte]

/-- Under its listed condition an instruction answers the fault state, with the code of the listed cause (R162). -/
theorem exec_faultedAs {i : Instr} {cause : FaultCause} (h : faultCauseOf i s = some cause) :
    ∃ t, exec i s = .next t ∧ t.faultCause.code = cause.code ∧ FaultedAs cause i s t :=
  ⟨_, exec_of_fault h, rfl, faultedAs_raise s cause i⟩

/-- Settles O39: each of the four conditions is the one listed for its instruction. -/
theorem dataAccessesAboveFFFRaiseFaultTwo : Obligations.DataAccessesAboveFFFRaiseFaultTwo := by
  intro x y n s
  have raises {i : Instr} (h : faultCauseOf i s = some .dataAddress) :
      ∃ t, exec i s = .next t ∧ t.faultCause.code = 2 ∧ FaultedAs .dataAddress i s t := exec_faultedAs h
  refine ⟨fun outside => ?_, fun outside => ⟨?_, ?_⟩, fun rows outside => ?_⟩
  · exact raises (if_pos outside)
  · exact raises (if_pos outside)
  · exact raises (if_pos outside)
  · exact raises (if_pos ⟨rows, outside⟩)

/-- Each byte of a stored register block reads as its register (R125). -/
theorem read_writeBytes_regBlock {x : Reg} (hwf : Memory.wf s.font s.mem = true) (inside : s.I.toNat + x.val ≤ 0xFFF)
    {j : Reg} (hj : j.val ≤ x.val) :
    Memory.read s.font (Memory.writeBytes s.font s.mem s.I.toNat (s.regBlock x)) (s.I.toNat + j.val) = s.getV j := by
  have hlen := s.length_regBlock x
  rw [Memory.read_writeBytes_inside hwf (by omega) j.val (by omega), State.getElem_regBlock]

/-- Settles O41: the two bytes that the fetch reads are two consecutive bytes of the stored block. -/
theorem aStoreIsSeenByTheNextFetch : Obligations.AStoreIsSeenByTheNextFetch := by
  intro x j k s t hwf inside hpc hk hkx ht
  cases ht.symm.trans (execStoreRegs_of_inside inside)
  have high := read_writeBytes_regBlock hwf inside (show j.val ≤ x.val by omega)
  have low := read_writeBytes_regBlock hwf inside hkx
  refine Memory.fetch_eq_some.2 ⟨show s.pc.toNat ≤ 0xFFE by omega, ?_⟩
  dsimp only
  rw [hpc, show s.I.toNat + j.val + 1 = s.I.toNat + k.val by omega, high, low]

end Sys2Proof.Machine
end

section
/-! Encoding (spec/30_encoding.md R60 to R68): a word is the word of its fields, so the decoder and the encoder are inverse to
each other, and the rows of the opcode map share no word. -/

namespace Sys2Proof

variable {w : Word}

/-! A word is made of its fields (R61) -/

theorem fmtADDR_of_fields {op : Nibble} (hop : fieldOp w = op) : fmtADDR op (fieldNNN w) = w :=
  BitVec.eq_of_toNat_eq (by rw [toNat_fmtADDR, ← hop, toNat_fieldOp, toNat_fieldNNN]; omega)

theorem fmtXNN_of_fields {op : Nibble} {nn : Byte} (hop : fieldOp w = op) (hnn : fieldNN w = nn) :
    fmtXNN op (fieldX w) nn = w :=
  BitVec.eq_of_toNat_eq (by rw [toNat_fmtXNN, ← hop, ← hnn, toNat_fieldOp, val_fieldX, toNat_fieldNN]; omega)

theorem fmtXYN_of_fields {op n : Nibble} (hop : fieldOp w = op) (hn : fieldN w = n) :
    fmtXYN op (fieldX w) (fieldY w) n = w :=
  BitVec.eq_of_toNat_eq
    (by rw [toNat_fmtXYN, ← hop, ← hn, toNat_fieldOp, val_fieldX, val_fieldY, toNat_fieldN]; omega)

/-! The groups whose sub-opcode selects an instruction (R64, R68) -/

theorem decodeWordWith_group5 {strict : Bool} (hop : fieldOp w = 0x5) :
    decodeWordWith strict w = if strict = true ∧ fieldN w ≠ 0 then none else some (.seReg (fieldX w) (fieldY w)) := by
  simp [decodeWordWith, hop]

theorem decodeWordWith_group9 {strict : Bool} (hop : fieldOp w = 0x9) :
    decodeWordWith strict w = if strict = true ∧ fieldN w ≠ 0 then none else some (.sneReg (fieldX w) (fieldY w)) := by
  simp [decodeWordWith, hop]

theorem decodeWordWith_group8 {strict : Bool} (hop : fieldOp w = 0x8) :
    decodeWordWith strict w = decodeGroup8 (fieldX w) (fieldY w) (fieldN w) := by
  simp [decodeWordWith, hop]

theorem decodeWordWith_groupE {strict : Bool} (hop : fieldOp w = 0xE) :
    decodeWordWith strict w = decodeGroupE (fieldX w) (fieldNN w) := by
  simp [decodeWordWith, hop]

theorem decodeWordWith_groupF {strict : Bool} (hop : fieldOp w = 0xF) :
    decodeWordWith strict w = decodeGroupF (fieldX w) (fieldNN w) := by
  simp [decodeWordWith, hop]

/-- Settles O1, by the format of each instruction: the decoder finds the opcode and the operands in the fields of the word,
and in groups 5, 8, 9, E and F the sub-opcode selects the instruction. -/
theorem decodingAnEncodedInstructionGivesItBack : Obligations.DecodingAnEncodedInstructionGivesItBack := by
  intro strict i
  cases i with
  | cls | ret => rfl
  | jp | call | ldI | jpV0 | seImm | sneImm | ldImm | addImm | rnd | drw => simp [encode, decodeWordWith]
  | seReg => simp [encode, decodeWordWith_group5]
  | sneReg => simp [encode, decodeWordWith_group9]
  | ldReg | orReg | andReg | xorReg | addReg | subReg | shr | subnReg | shl =>
    simp [encode, decodeWordWith_group8, decodeGroup8]
  | skp | sknp => simp [encode, decodeWordWith_groupE, decodeGroupE]
  | ldVxDT | ldVxK | ldDTVx | ldSTVx | addI | ldF | ldB | storeRegs | loadRegs =>
    simp [encode, decodeWordWith_groupF, decodeGroupF]

/-! The word of a decoded instruction (R65) -/

theorem encode_of_decodeGroup8 {x y : Reg} {n : Nibble} {i : Instr} (h : decodeGroup8 x y n = some i) :
    encode i = fmtXYN 0x8 x y n := by
  unfold decodeGroup8 at h
  split at h <;> cases h <;> rfl

theorem encode_of_decodeGroupE {x : Reg} {nn : Byte} {i : Instr} (h : decodeGroupE x nn = some i) :
    encode i = fmtXNN 0xE x nn := by
  unfold decodeGroupE at h
  split at h <;> cases h <;> rfl

theorem encode_of_decodeGroupF {x : Reg} {nn : Byte} {i : Instr} (h : decodeGroupF x nn = some i) :
    encode i = fmtXNN 0xF x nn := by
  unfold decodeGroupF at h
  split at h <;> cases h <;> rfl

/-- Settles O2: in each group the encoder puts together the fields that the decoder took apart. -/
theorem encodingADecodedWordGivesItBack : Obligations.EncodingADecodedWordGivesItBack := by
  intro w i h
  -- The cases h_1 to h_16 are the opcodes 0 to F.
  unfold decodeWordWith at h
  split at h
  case h_1 =>
    split_ifs at h with hcls hret
    · cases h; exact hcls.symm
    · cases h; exact hret.symm
  case h_2 hop | h_3 hop | h_11 hop | h_12 hop => cases h; exact fmtADDR_of_fields hop
  case h_4 hop | h_5 hop | h_7 hop | h_8 hop | h_13 hop => cases h; exact fmtXNN_of_fields hop rfl
  case h_6 hop | h_10 hop =>
    split_ifs at h with hn
    cases h
    exact fmtXYN_of_fields hop (by simpa using hn)
  case h_9 hop => exact (encode_of_decodeGroup8 h).trans (fmtXYN_of_fields hop rfl)
  case h_14 hop => cases h; exact fmtXYN_of_fields hop rfl
  case h_15 hop => exact (encode_of_decodeGroupE h).trans (fmtXNN_of_fields hop rfl)
  case h_16 hop => exact (encode_of_decodeGroupF h).trans (fmtXNN_of_fields hop rfl)
  case h_17 => cases h

/-! The sub-opcodes that no instruction has (R67) -/

theorem decodeGroup8_eq_none {x y : Reg} {n : Nibble} :
    decodeGroup8 x y n = none ↔ n.toNat ∈ [8, 9, 0xA, 0xB, 0xC, 0xD, 0xF] := by
  unfold decodeGroup8
  split
  case h_10 => revert n; decide
  all_goals simp

theorem decodeGroupE_eq_none {x : Reg} {nn : Byte} : decodeGroupE x nn = none ↔ nn.toNat ∉ [0x9E, 0xA1] := by
  unfold decodeGroupE
  split
  case h_3 => simp_all [BitVec.toNat_eq]
  all_goals simp

theorem decodeGroupF_eq_none {x : Reg} {nn : Byte} :
    decodeGroupF x nn = none ↔ nn.toNat ∉ [0x07, 0x0A, 0x15, 0x18, 0x1E, 0x29, 0x33, 0x55, 0x65] := by
  unfold decodeGroupF
  split
  case h_10 => simp_all [BitVec.toNat_eq]
  all_goals simp

/-! The words that do not decode (R67) -/

theorem div_eq_toNat_fieldOp (w : Word) : w.toNat / 0x1000 = (fieldOp w).toNat := by
  rw [toNat_fieldOp]; omega

/-- Settles O4, by the opcode: it leaves one case of the list, where the sub-opcode decides, or none, where every word
decodes. -/
theorem unknownWordsAreExactlyTheListedOnes : Obligations.UnknownWordsAreExactlyTheListedOnes := by
  intro w
  rw [div_eq_toNat_fieldOp, ← toNat_fieldN, ← toNat_fieldNN]
  -- The cases h_1 to h_16 are the opcodes 0 to F.
  unfold decodeWordWith
  split
  case h_1 hop => simp [hop, ite_eq_iff]
  case h_6 hop | h_10 hop => simp [hop, BitVec.toNat_eq]
  case h_9 hop => simp only [hop, decodeGroup8_eq_none]; simp
  case h_15 hop => simp only [hop, decodeGroupE_eq_none]; simp
  case h_16 hop => simp only [hop, decodeGroupF_eq_none]; simp
  case h_17 => exfalso; generalize fieldOp w = op at *; revert op; decide
  case h_2 hop | h_3 hop | h_4 hop | h_5 hop | h_7 hop | h_8 hop | h_11 hop | h_12 hop | h_13 hop | h_14 hop =>
    simp [hop]

/-! The strictness (R68) -/

/-- Outside the groups 5 and 9 the decoder does not read STRICT_LOW_NIBBLE. -/
theorem decodeWordWith_eq_strict (strict : Bool) (h5 : fieldOp w ≠ 0x5) (h9 : fieldOp w ≠ 0x9) :
    decodeWordWith strict w = decodeWordWith true w := by
  unfold decodeWordWith
  split
  case h_6 hop => exact absurd hop h5
  case h_10 hop => exact absurd hop h9
  all_goals rfl

/-- Settles O5: with STRICT_LOW_NIBBLE false the test of N in the groups 5 and 9 passes, and the other groups have none. -/
theorem looseLowNibbleChangesGroups5And9Only : Obligations.LooseLowNibbleChangesGroups5And9Only := by
  refine ⟨fun x y n => ⟨?_, ?_⟩, fun w h5 h9 => ?_⟩
  · simp [decodeWordWith_group5]
  · simp [decodeWordWith_group9]
  · rw [div_eq_toNat_fieldOp] at h5 h9
    exact decodeWordWith_eq_strict false (fun h => h5 (congrArg BitVec.toNat h)) (fun h => h9 (congrArg BitVec.toNat h))

/-! The rows of the opcode map (R64, R65) -/

theorem OpcodeRow.selects_iff {r : OpcodeRow} : r.selects w = true ↔ w &&& r.mask = r.pattern := beq_iff_eq

theorem rowOf_mem_opcodeRows (i : Instr) : rowOf i ∈ opcodeRows := by
  cases i <;> simp [opcodeRows, opcodeForms, rowOf]

/-- Two rows of the map whose patterns agree on the bits that both masks look at are one row. -/
theorem opcodeRows_disjoint : ∀ r ∈ opcodeRows, ∀ r' ∈ opcodeRows,
    r.pattern &&& r'.mask = r'.pattern &&& r.mask → r = r' := by
  decide

theorem OpcodeRow.eq_of_selects {r r' : OpcodeRow} (hr : r ∈ opcodeRows) (hr' : r' ∈ opcodeRows) (h : r.selects w = true)
    (h' : r'.selects w = true) : r = r' := by
  refine opcodeRows_disjoint r hr r' hr' ?_
  rw [← OpcodeRow.selects_iff.1 h, ← OpcodeRow.selects_iff.1 h', BitVec.and_assoc, BitVec.and_assoc,
    BitVec.and_comm r.mask]

/-- The word of an instruction selects the row of the instruction. -/
theorem rowOf_selects_encode (i : Instr) : (rowOf i).selects (encode i) = true := by
  cases i with
  | cls | ret => rfl
  | jp | call | ldI | jpV0 => exact OpcodeRow.selects_iff.2 (Laws.OpcodeRow.addr_opcode _ _)
  | seImm | sneImm | ldImm | addImm | rnd => exact OpcodeRow.selects_iff.2 (Laws.OpcodeRow.xnn_opcode _ _ _)
  | drw => exact OpcodeRow.selects_iff.2 (Laws.OpcodeRow.xyn_opcode _ _ _ _)
  | seReg | sneReg | ldReg | orReg | andReg | xorReg | addReg | subReg | shr | subnReg | shl =>
    exact OpcodeRow.selects_iff.2 (Laws.OpcodeRow.xy_opcode _ _ _ _)
  | skp | sknp | ldVxDT | ldVxK | ldDTVx | ldSTVx | addI | ldF | ldB | storeRegs | loadRegs =>
    exact OpcodeRow.selects_iff.2 (Laws.OpcodeRow.xs_opcode _ _ _)

/-! A word has the fields of the pattern of a row that it selects, where the mask keeps the whole field -/

theorem fieldOp_and (w m : Word) : fieldOp (w &&& m) = fieldOp w &&& fieldOp m := BitVec.extractLsb'_and
theorem fieldN_and (w m : Word) : fieldN (w &&& m) = fieldN w &&& fieldN m := BitVec.extractLsb'_and
theorem fieldNN_and (w m : Word) : fieldNN (w &&& m) = fieldNN w &&& fieldNN m := BitVec.extractLsb'_and

theorem fieldOp_of_selects {r : OpcodeRow} (h : r.selects w = true) (hm : fieldOp r.mask = BitVec.allOnes 4) :
    fieldOp w = fieldOp r.pattern := by
  rw [← OpcodeRow.selects_iff.1 h, fieldOp_and, hm, BitVec.and_allOnes]

theorem fieldN_of_selects {r : OpcodeRow} (h : r.selects w = true) (hm : fieldN r.mask = BitVec.allOnes 4) :
    fieldN w = fieldN r.pattern := by
  rw [← OpcodeRow.selects_iff.1 h, fieldN_and, hm, BitVec.and_allOnes]

theorem fieldNN_of_selects {r : OpcodeRow} (h : r.selects w = true) (hm : fieldNN r.mask = BitVec.allOnes 8) :
    fieldNN w = fieldNN r.pattern := by
  rw [← OpcodeRow.selects_iff.1 h, fieldNN_and, hm, BitVec.and_allOnes]

/-- What the map shows of its rows: each mask keeps the opcode, and in a group that has unknown words it keeps the
sub-opcode too, for which the row has a known value. -/
theorem opcodeRows_fields : ∀ r ∈ opcodeRows,
    fieldOp r.mask = BitVec.allOnes 4 ∧
    ((fieldOp r.pattern).toNat = 0x0 → r = rowOf .cls ∨ r = rowOf .ret) ∧
    ((fieldOp r.pattern).toNat ∈ [0x5, 0x9] → fieldN r.mask = BitVec.allOnes 4 ∧ (fieldN r.pattern).toNat = 0) ∧
    ((fieldOp r.pattern).toNat = 0x8 →
      fieldN r.mask = BitVec.allOnes 4 ∧ (fieldN r.pattern).toNat ∉ [8, 9, 0xA, 0xB, 0xC, 0xD, 0xF]) ∧
    ((fieldOp r.pattern).toNat = 0xE →
      fieldNN r.mask = BitVec.allOnes 8 ∧ (fieldNN r.pattern).toNat ∈ [0x9E, 0xA1]) ∧
    ((fieldOp r.pattern).toNat = 0xF → fieldNN r.mask = BitVec.allOnes 8 ∧
      (fieldNN r.pattern).toNat ∈ [0x07, 0x0A, 0x15, 0x18, 0x1E, 0x29, 0x33, 0x55, 0x65]) := by
  decide

/-- A word that selects a row of the map is none of the listed unknown words: it has the fields of the row's pattern. -/
theorem decodeWordWith_ne_none_of_selects {r : OpcodeRow} (hr : r ∈ opcodeRows) (h : r.selects w = true) :
    decodeWordWith true w ≠ none := by
  obtain ⟨opKept, zero, fiveNine, eight, groupE, groupF⟩ := opcodeRows_fields r hr
  have hop := congrArg BitVec.toNat (fieldOp_of_selects h opKept)
  rw [Ne, unknownWordsAreExactlyTheListedOnes w, div_eq_toNat_fieldOp, ← toNat_fieldN, ← toNat_fieldNN, hop]
  rintro (⟨h0, hcls, hret⟩ | ⟨h5, hn⟩ | ⟨h8, hn⟩ | ⟨h9, hn⟩ | ⟨hE, hnn⟩ | ⟨hF, hnn⟩)
  · have allKept : w &&& 0xFFFF = w := BitVec.and_allOnes
    rcases zero h0 with rfl | rfl
    · exact hcls (allKept.symm.trans (OpcodeRow.selects_iff.1 h))
    · exact hret (allKept.symm.trans (OpcodeRow.selects_iff.1 h))
  · obtain ⟨kept, known⟩ := fiveNine (by simp [h5])
    exact hn (fieldN_of_selects h kept ▸ known)
  · obtain ⟨kept, known⟩ := eight h8
    exact known (fieldN_of_selects h kept ▸ hn)
  · obtain ⟨kept, known⟩ := fiveNine (by simp [h9])
    exact hn (fieldN_of_selects h kept ▸ known)
  · obtain ⟨kept, known⟩ := groupE hE
    exact hnn (fieldNN_of_selects h kept ▸ known)
  · obtain ⟨kept, known⟩ := groupF hF
    exact hnn (fieldNN_of_selects h kept ▸ known)

/-- Settles O3: a word that decodes is the word of its instruction, so it selects that instruction's row, and no two rows
share a word. -/
theorem aWordSelectsOnlyTheRowItDecodesTo : Obligations.AWordSelectsOnlyTheRowItDecodesTo := by
  intro w
  refine ⟨fun i hi => ⟨rowOf_mem_opcodeRows i, fun r hr => ?_⟩, fun hnone r hr => ?_⟩
  · have own : (rowOf i).selects w = true := encodingADecodedWordGivesItBack w i hi ▸ rowOf_selects_encode i
    exact ⟨fun h => OpcodeRow.eq_of_selects hr (rowOf_mem_opcodeRows i) h own, fun h => h ▸ own⟩
  · exact Bool.eq_false_iff.2 fun selected => decodeWordWith_ne_none_of_selects hr selected hnone

/-- Settles O6: the decoder evaluates each of the listed words. -/
theorem listedWordsDecodeToTheirInstructions : Obligations.ListedWordsDecodeToTheirInstructions := by
  unfold Obligations.ListedWordsDecodeToTheirInstructions
  decide

end Sys2Proof
end

section
/-! Control flow (spec/40_control_flow.md): the step that fetches a word and runs it (R80, R90), also a word placed for the
next fetch (assumption log 17), and what jumps, calls, returns and skips do (R81 to R89). -/

namespace Sys2Proof.Machine

variable {s : State} {w : Word}

/-- No instruction is left without a meaning: on both sides of its fault condition it answers a next state. -/
theorem exec_answers_next (i : Instr) (s : State) : ∃ t, exec i s = .next t := by
  cases hf : faultCauseOf i s with
  | some cause => exact ⟨_, exec_of_fault hf⟩
  | none =>
    cases i with
    | call => exact ⟨_, execCall_of_room (faultCauseOf_call_eq_none.1 hf)⟩
    | ret => exact ⟨_, execRet_of_nonempty (faultCauseOf_ret_eq_none.1 hf)⟩
    | skp =>
      obtain ⟨k, hk⟩ := faultCauseOf_skp_eq_none.1 hf
      exact ⟨_, execSkp_of_key hk⟩
    | sknp =>
      obtain ⟨k, hk⟩ := faultCauseOf_sknp_eq_none.1 hf
      exact ⟨_, execSknp_of_key hk⟩
    | ldB => exact ⟨_, execLdB_of_inside (faultCauseOf_ldB_eq_none.1 hf)⟩
    | storeRegs => exact ⟨_, execStoreRegs_of_inside (faultCauseOf_storeRegs_eq_none.1 hf)⟩
    | loadRegs => exact ⟨_, execLoadRegs_of_inside (faultCauseOf_loadRegs_eq_none.1 hf)⟩
    | drw => exact ⟨_, execDrw_of_inside (faultCauseOf_drw_eq_none.1 hf)⟩
    | _ => exact ⟨_, rfl⟩

/-- Settles O55, by cases on the fault condition: under it the instruction raises its fault, which is a next state (D2). -/
theorem everyInstructionAnswersANextState : Obligations.EveryInstructionAnswersANextState := exec_answers_next

/-! The step -/

theorem decode_pair_eq_ok {strict : Bool} {hi lo : Byte} {i : Instr} :
    decode strict [hi, lo] = .ok (i, []) ↔ decodeWordWith strict (wordOfBytes hi lo) = some i := by
  rw [decode]
  split <;> simp [*]

theorem execWord_of_known {i : Instr} (h : decodeWordWith s.strictLowNibble w = some i) : execWord w s = exec i s := by
  simp [execWord, h]

theorem execWord_of_unknown (h : decodeWordWith s.strictLowNibble w = none) : execWord w s = .next (unknownWord w s) := by
  simp [execWord, h]

theorem step_of_fetched (hsched : s.schedule = []) (hmode : s.mode = .normal) (hpc : s.pc.toNat ≤ 0xFFE) :
    step s = execWord (wordOfBytes (s.byte s.pc.toNat) (s.byte (s.pc.toNat + 1))) s.begun.advance :=
  (step_of_unscheduled hsched).trans (cpuStep_of_fetched hmode hpc)

/-- Settles O10: the state that the decoded instruction gets has its advance and a closed boot order, and nothing more. -/
theorem aStepRunsTheDecodedInstruction : Obligations.AStepRunsTheDecodedInstruction := by
  intro s i hsched hmode hpc hdecode
  exact (step_of_fetched hsched hmode hpc).trans (execWord_of_known (decode_pair_eq_ok.1 hdecode))

/-- After an unknown word, besides the `Diag` and the advance, only the boot order is closed (R90). -/
theorem keeps_unknownWord : Keeps [.pc, .outputs, .loadAllowed] s (unknownWord w s.begun.advance) := by
  intro p hp
  cases p <;> simp_all [Part.same, State.byte, unknownWord]

theorem outputs_unknownWord : (unknownWord w s.begun.advance).outputs = .diag s.pc w :: s.outputs := by
  simp [unknownWord]

/-- Settles O11: a word that does not decode goes to `unknownWord`. -/
theorem anUnknownWordOnlyEmitsDiag : Obligations.AnUnknownWordOnlyEmitsDiag := by
  rintro s w hsched hmode hpc rfl hunknown
  exact ⟨_, (step_of_fetched hsched hmode hpc).trans (execWord_of_unknown hunknown), rfl, outputs_unknownWord, rfl,
    keeps_unknownWord⟩

/-- Settles O13: with an empty schedule it is the CPU that moves, and it is stopped. -/
theorem aStepOutsideNormalDoesNothing : Obligations.AStepOutsideNormalDoesNothing :=
  fun _ hsched hmode => (step_of_unscheduled hsched).trans (cpuStep_of_stopped hmode)

/-! A placed word (assumption log 17) -/

theorem State.withFetchWord_toNat (s : State) (w : Word) : s.withFetchWord 16 w.toNat = placeWord w s := by
  rw [State.withFetchWord, Nat.mod_eq_of_lt w.isLt, BitVec.ofNat_toNat, BitVec.setWidth_eq]

theorem fetchableAddr_of_inside {pc : Word} (h : pc.toNat ≤ 0xFFE) : fetchableAddr pc = pc := if_pos h

theorem toNat_fetchableAddr_le (pc : Word) : (fetchableAddr pc).toNat ≤ 0xFFE := by
  unfold fetchableAddr
  split
  · assumption
  · decide

theorem keeps_placeWord : Keeps [.mem, .pc, .mode, .schedule] s (placeWord w s) := by
  intro p hp
  cases p <;> simp_all [Part.same, placeWord]

theorem keepsBytesOutside_placeWord : KeepsBytesOutside (placeWord w s).pc.toNat 2 s (placeWord w s) :=
  fun _ outside => Memory.read_writeBytes_other outside

/-- The two bytes at the address of the next fetch make the placed word. -/
theorem wordOfBytes_placeWord (hwf : Memory.wf s.font s.mem = true) :
    wordOfBytes ((placeWord w s).byte (placeWord w s).pc.toNat) ((placeWord w s).byte ((placeWord w s).pc.toNat + 1)) = w := by
  have stored := Memory.read_writeBytes_inside (bs := bytesOfWord w) hwf (a := (fetchableAddr s.pc).toNat)
    (Nat.add_le_add_right (toNat_fetchableAddr_le s.pc) 2)
  have high : (placeWord w s).byte (placeWord w s).pc.toNat = w.extractLsb' 8 8 := stored 0 Nat.two_pos
  have low : (placeWord w s).byte ((placeWord w s).pc.toNat + 1) = w.extractLsb' 0 8 := stored 1 Nat.one_lt_two
  rw [high, low]
  exact (wordOfBytes_bytesOfWord w).2

theorem step_placeWord (hwf : Memory.wf s.font s.mem = true) :
    step (placeWord w s) = execWord w (placeWord w s).begun.advance := by
  have fetched := step_of_fetched (s := placeWord w s) rfl rfl (toNat_fetchableAddr_le s.pc)
  rwa [wordOfBytes_placeWord hwf] at fetched

/-- Settles O15: the placed bytes lie where the next fetch reads, so the step runs the placed word. -/
theorem aPlacedWordIsTheOneTheNextStepRuns : Obligations.APlacedWordIsTheOneTheNextStepRuns := by
  intro s w hwf
  simp only [State.withFetchWord_toNat, step_placeWord hwf]
  exact ⟨keeps_placeWord, keepsBytesOutside_placeWord, fetchableAddr_of_inside, fun i known => execWord_of_known known,
    fun unknown => ⟨_, execWord_of_unknown unknown, outputs_unknownWord⟩⟩

/-! Jumps -/

/-- Settles O16: a zero-extended address keeps its value. -/
theorem jpSetsPcToItsAddress : Obligations.JpSetsPcToItsAddress :=
  fun nnn _ => ⟨_, rfl, toNat_zextAddr nnn, keeps_pc⟩

/-- The target of a jump relative to `V[0]` is the plain sum, as a 12-bit address and a byte do not overflow 16 bits (R85). -/
theorem toNat_zextAddr_add_zextByte (nnn : Addr) (b : Byte) : (zextAddr nnn + zextByte b).toNat = nnn.toNat + b.toNat := by
  rw [BitVec.toNat_add, toNat_zextAddr, toNat_zextByte]
  omega

/-- Settles O21: the sum is the target. -/
theorem jpV0AddsRegisterZeroWithoutReduction : Obligations.JpV0AddsRegisterZeroWithoutReduction :=
  fun nnn s => ⟨_, rfl, toNat_zextAddr_add_zextByte nnn (s.getV 0), keeps_pc⟩

/-! Call and return -/

/-- Settles O17: the one slot that is set is the one at the old depth. -/
theorem callPushesTheAdvancedPcAndJumps : Obligations.CallPushesTheAdvancedPcAndJumps := by
  intro nnn s room
  refine ⟨_, execCall_of_room room, toNat_zextAddr nnn, rfl, fun k => ?_, keeps_pushed⟩
  simp [Vector.getElem_set, eq_comm]

/-- Settles O18: the slot below the depth is read and not written. -/
theorem retPopsIntoPc : Obligations.RetPopsIntoPc := by
  intro s held
  refine ⟨_, execRet_of_nonempty (by omega), rfl, fun k hk => ?_, keeps_popped⟩
  simp [hk]

/-- Settles O19: both are the listed fault conditions of their instructions. -/
theorem callAtFullStackAndRetAtEmptyStackFault : Obligations.CallAtFullStackAndRetAtEmptyStackFault := by
  refine ⟨fun nnn s full => ?_, fun s empty => ?_⟩
  · have overflows : faultCauseOf (.call nnn) s = some .stackOverflow := if_pos full
    exact exec_faultedAs overflows
  · have underflows : faultCauseOf .ret s = some .stackUnderflow := if_pos empty
    exact exec_faultedAs underflows

/-- Settles O20, from what a call pushes (O17) and what a return pops (O18): the slot that the return reads is the one that
the call wrote. -/
theorem aRetUndoesItsCall : Obligations.ARetUndoesItsCall := by
  intro nnn s t u room ht hSP hstack
  obtain ⟨t', ht', -, pushedSP, pushedStack, -⟩ := callPushesTheAdvancedPcAndJumps nnn s room
  cases ht.symm.trans ht'
  have depth : u.SP.val = s.SP.val + 1 := by rw [hSP, pushedSP]
  obtain ⟨v, hv, poppedSP, poppedPc, frame⟩ := retPopsIntoPc u (by omega)
  refine ⟨v, hv, ?_, Fin.ext (by omega), frame⟩
  rw [poppedPc ⟨s.SP.val, room⟩ (by dsimp only; omega), hstack, pushedStack, if_pos rfl]

/-! Skips -/

/-- A meaning that skips on `c` advances `pc` by 2 more exactly when the condition `p` that `c` decides holds (R15, R86). -/
theorem skips_of_next {r : Result} {c : Bool} {p : Prop} [Decidable p] (hr : r = .next (s.skipIf c)) (hc : c = true ↔ p) :
    ∃ t, r = .next t ∧ t.pc = (if p then s.pc + 2 else s.pc) ∧ Keeps [.pc] s t :=
  ⟨_, hr, by simp only [State.skipIf_pc, hc], keeps_skipIf⟩

/-- Settles O22: the two conditions are equality and inequality with the immediate. -/
theorem skipsOnAnImmediate : Obligations.SkipsOnAnImmediate :=
  fun _ _ _ => ⟨skips_of_next rfl beq_iff_eq, skips_of_next rfl bne_iff_ne⟩

/-- Settles O23: the two conditions are equality and inequality of the registers. -/
theorem skipsOnTwoRegisters : Obligations.SkipsOnTwoRegisters :=
  fun _ _ _ => ⟨skips_of_next rfl beq_iff_eq, skips_of_next rfl bne_iff_ne⟩

end Sys2Proof.Machine
end

section
/-! Immediate, ALU and random instructions (spec/41_immediate_and_alu.md R100 to R112): each makes one register write, and
those of R12 a flag write after it (D6). What they write is read off here as a number or bit by bit. -/

namespace Sys2Proof.Machine

variable {s : State} {x : Reg}

/-! The register file after a result, and after a result with its flag -/

theorem keepsRegs_setV {b : Byte} : KeepsRegs [x] s (s.setV x b) :=
  fun _ hr => State.getV_setV_other s b (List.ne_of_not_mem_cons hr)

/-- A draw of the random byte is not in the register file. -/
theorem keepsRegs_drawn_setV {b : Byte} : KeepsRegs [x] s (s.drawn.setV x b) :=
  fun r hr => (keepsRegs_setV r hr).trans (State.getV_congr (State.drawn_V s) r)

theorem keepsRegs_setResultFlag {b : Byte} {f : Bool} : KeepsRegs [x, VF] s (s.setResultFlag x b f) := by
  intro r hr
  have notDest : r ≠ x := List.ne_of_not_mem_cons hr
  have notFlag : r ≠ VF := List.ne_of_not_mem_cons (List.not_mem_of_not_mem_cons hr)
  rw [State.getV_setResultFlag, if_neg notFlag, if_neg notDest]

/-- The flag stays, also when `VF` is the destination (D6). -/
@[simp] theorem State.getV_setResultFlag_VF (s : State) (x : Reg) (b : Byte) (f : Bool) :
    (s.setResultFlag x b f).getV VF = flagByte f :=
  State.getV_setV_same ..

theorem State.getV_setResultFlag_dest (s : State) (b : Byte) (f : Bool) (hx : x ≠ VF) :
    (s.setResultFlag x b f).getV x = b := by
  rw [State.getV_setResultFlag, if_neg hx, if_pos rfl]

/-! The flags -/

theorem flagByte_decide (p : Prop) [Decidable p] : flagByte (decide p) = if p then 1 else 0 := by
  simp [flagByte]

theorem toNat_flagByte (f : Bool) : (flagByte f).toNat = f.toNat := by
  cases f <;> rfl

theorem flagByte_carryOut (a b : Byte) : flagByte (carryOut a b) = if a.toNat + b.toNat > 255 then 1 else 0 :=
  flagByte_decide _

theorem flagByte_noBorrow (a b : Byte) : flagByte (noBorrow a b) = if a.toNat ≥ b.toNat then 1 else 0 :=
  flagByte_decide _

/-- The bit that a right shift drops is the remainder of the halving (R108). -/
theorem toNat_flagByte_shrOut (a : Byte) : (flagByte (shrOut a)).toNat = a.toNat % 2 := by
  rw [toNat_flagByte, shrOut, BitVec.getLsbD, Nat.toNat_testBit, pow_zero, Nat.div_one]

/-- The bit that a left shift drops is the highest of the byte (R110). -/
theorem toNat_flagByte_shlOut (a : Byte) : (flagByte (shlOut a)).toNat = a.toNat / 128 := by
  rw [toNat_flagByte, shlOut, BitVec.getLsbD, Nat.toNat_testBit]
  omega

/-! The results as numbers -/

/-- A difference of bytes is the difference of integers modulo 256 (R107, R109). -/
theorem toNat_sub_eq_emod (a b : Byte) : ((a - b).toNat : Int) = (a.toNat - b.toNat : Int) % 256 := by
  rw [BitVec.toNat_sub]
  omega

theorem toNat_shr_one (a : Byte) : (a >>> 1).toNat = a.toNat / 2 := by
  rw [BitVec.toNat_ushiftRight, Nat.shiftRight_eq_div_pow, pow_one]

theorem toNat_shl_one (a : Byte) : (a <<< 1).toNat = a.toNat * 2 % 256 := by
  rw [BitVec.toNat_shiftLeft, Nat.shiftLeft_eq, pow_one]

/-! Instructions that write a flag -/

/-- Settles O28: the flag is the carry of the operands as they were, and the result their sum. -/
theorem addRegistersLeavesSumAndCarry : Obligations.AddRegistersLeavesSumAndCarry := by
  intro x y s
  refine ⟨_, rfl, ?_, fun hx => ?_, keepsRegs_setResultFlag, keeps_registers⟩
  · rw [State.getV_setResultFlag_VF, flagByte_carryOut]
  · rw [State.getV_setResultFlag_dest _ _ _ hx, BitVec.toNat_add]

/-- Subtracting `b` from `a` into `V[x]`, the flag as no-borrow: what `SUB` and `SUBN` share (R107, R109). -/
theorem subtracts_of_next {r : Result} {a b : Byte} (hr : r = .next (s.setResultFlag x (a - b) (noBorrow a b))) :
    ∃ t, r = .next t ∧ t.getV VF = (if a.toNat ≥ b.toNat then 1 else 0) ∧
      (x ≠ VF → ((t.getV x).toNat : Int) = (a.toNat - b.toNat : Int) % 256) ∧
      KeepsRegs [x, VF] s t ∧ Keeps [.V] s t := by
  refine ⟨_, hr, ?_, fun hx => ?_, keepsRegs_setResultFlag, keeps_registers⟩
  · rw [State.getV_setResultFlag_VF, flagByte_noBorrow]
  · rw [State.getV_setResultFlag_dest _ _ _ hx, toNat_sub_eq_emod]

/-- Settles O29: the two subtract the same registers in the two orders. -/
theorem subtractionsLeaveDifferenceAndNoBorrow : Obligations.SubtractionsLeaveDifferenceAndNoBorrow :=
  fun _ _ _ => ⟨subtracts_of_next rfl, subtracts_of_next rfl⟩

/-- Settles O30: the bit shifted out is the remainder of the halving, or the quotient by 128. -/
theorem shiftsMoveByOneAndKeepTheBitShiftedOut : Obligations.ShiftsMoveByOneAndKeepTheBitShiftedOut := by
  intro x y s
  refine ⟨⟨_, rfl, ?_, fun hx => ?_, keepsRegs_setResultFlag, keeps_registers⟩,
    ⟨_, rfl, ?_, fun hx => ?_, keepsRegs_setResultFlag, keeps_registers⟩⟩
  · rw [State.getV_setResultFlag_VF, toNat_flagByte_shrOut]
  · rw [State.getV_setResultFlag_dest _ _ _ hx, toNat_shr_one]
  · rw [State.getV_setResultFlag_VF, toNat_flagByte_shlOut]
  · rw [State.getV_setResultFlag_dest _ _ _ hx, toNat_shl_one]

/-! Instructions that write their destination alone (D7) -/

/-- Settles O24: the immediate is the one byte written. -/
theorem loadImmediateWritesItsRegister : Obligations.LoadImmediateWritesItsRegister :=
  fun _ _ _ => ⟨_, rfl, State.getV_setV_same .., keepsRegs_setV, keeps_registers⟩

/-- Settles O25: the sum of two bytes wraps at 256. -/
theorem addImmediateWrapsAndWritesNoFlag : Obligations.AddImmediateWrapsAndWritesNoFlag := by
  intro x nn s
  refine ⟨_, rfl, ?_, keepsRegs_setV, keeps_registers⟩
  rw [State.getV_setV_same, BitVec.toNat_add]

/-- Settles O26: the source register is the one byte written. -/
theorem copyWritesItsRegister : Obligations.CopyWritesItsRegister :=
  fun _ _ _ => ⟨_, rfl, State.getV_setV_same .., keepsRegs_setV, keeps_registers⟩

/-- Settles O27: each result is read bit by bit. -/
theorem logicWorksBitwiseAndWritesNoFlag : Obligations.LogicWorksBitwiseAndWritesNoFlag := by
  intro x y s
  refine ⟨⟨_, rfl, fun k => ?_, keepsRegs_setV, keeps_registers⟩,
    ⟨_, rfl, fun k => ?_, keepsRegs_setV, keeps_registers⟩,
    ⟨_, rfl, fun k => ?_, keepsRegs_setV, keeps_registers⟩⟩
  · rw [State.getV_setV_same, BitVec.getLsbD_or]
  · rw [State.getV_setV_same, BitVec.getLsbD_and]
  · rw [State.getV_setV_same, BitVec.getLsbD_xor]

/-- Settles O31: a bit that is 0 in the mask is 0 in the AND, whatever the byte drawn. -/
theorem randomKeepsOnlyTheBitsOfItsMask : Obligations.RandomKeepsOnlyTheBitsOfItsMask := by
  intro x nn s
  refine ⟨_, rfl, State.getV_setV_same .., fun k maskedOut => ?_, rfl, keepsRegs_drawn_setV, keeps_drawn_setV⟩
  rw [State.getV_setV_same, BitVec.getLsbD_and, maskedOut, Bool.and_false]

end Sys2Proof.Machine
end

section
/-! Index register and memory instructions (spec/42_index_and_memory.md R120 to R126): what a write of `I` leaves is read off
as a number, a stored block byte by byte, and a loaded block register by register. -/

namespace Sys2Proof.Machine

variable {s : State}

/-! Instructions that write the index register -/

/-- Settles O33: a zero-extended address keeps its value. -/
theorem loadIndexSetsTheIndex : Obligations.LoadIndexSetsTheIndex :=
  fun nnn _ => ⟨_, rfl, toNat_zextAddr nnn, keeps_index⟩

/-- Settles O34: the sum of two 16-bit values wraps at 65536, and a zero-extended byte keeps its value. -/
theorem addToIndexWrapsAtSixteenBits : Obligations.AddToIndexWrapsAtSixteenBits := by
  intro x s
  refine ⟨_, rfl, ?_, keeps_index⟩
  rw [BitVec.toNat_add, toNat_zextByte]

/-- The glyph address is the plain product, as five times a byte does not overflow 16 bits (R122, D21). -/
theorem toNat_glyphAddr (v : Byte) : (glyphAddr v).toNat = 5 * v.toNat := by
  have noWrap : 5 * v.toNat < 2 ^ 16 := by omega
  rw [glyphAddr, BitVec.toNat_mul, toNat_zextByte]
  exact Nat.mod_eq_of_lt noWrap

/-- Settles O35: the product is the new index. -/
theorem indexFromDigitIsFiveTimesTheRegister : Obligations.IndexFromDigitIsFiveTimesTheRegister :=
  fun x s => ⟨_, rfl, toNat_glyphAddr (s.getV x), keeps_index⟩

/-! Instructions that store a block -/

/-- A block store changes no byte outside its block. -/
theorem keepsBytesOutside_writeBytes {a n : Nat} {bs : List Byte} (hlen : bs.length = n) :
    KeepsBytesOutside a n s { s with mem := Memory.writeBytes s.font s.mem a bs } := by
  subst hlen
  exact fun _ outside => Memory.read_writeBytes_other outside

/-- Settles O36: the block stored is the list of the three digits, whose quotients and remainders of bytes are those of the
numbers. -/
theorem bcdStoresThreeDigits : Obligations.BcdStoresThreeDigits := by
  intro x s hwf inside
  have stored (k : Nat) (hk : k < 3) :=
    Memory.read_writeBytes_inside (bs := bcdDigits (s.getV x)) hwf (Nat.succ_le_succ inside) k hk
  refine ⟨_, execLdB_of_inside inside, ?hundreds, ?tens, ?ones, keepsBytesOutside_writeBytes rfl, keeps_memory⟩
  case hundreds => exact (congrArg BitVec.toNat (stored 0 (by decide))).trans BitVec.toNat_udiv
  case tens => exact (congrArg BitVec.toNat (stored 1 (by decide))).trans BitVec.toNat_umod
  case ones => exact (congrArg BitVec.toNat (stored 2 (by decide))).trans BitVec.toNat_umod

/-- Settles O37: the block stored is the list of the registers `V[0]` to `V[X]`. -/
theorem blockStoreCopiesRegistersToMemory : Obligations.BlockStoreCopiesRegistersToMemory := by
  intro x s hwf inside
  exact ⟨_, execStoreRegs_of_inside inside, fun _ hk => read_writeBytes_regBlock hwf inside hk,
    keepsBytesOutside_writeBytes (s.length_regBlock x), keeps_memory⟩

/-! The instruction that loads a block -/

/-- Loading `n` bytes from address `a` into `V[0]` upwards: a register below `n` reads as the byte at its address, and the
others are left. -/
theorem getV_setRegs_readBytes {a n : Nat} (hn : n ≤ 16) (k : Reg) :
    (s.setRegs 0 (Memory.readBytes s.font s.mem a n)).getV k = if k.val < n then s.byte (a + k.val) else s.getV k := by
  rw [State.getV_setRegs _ _ _ (by rwa [Memory.length_readBytes, Nat.zero_add])]
  simp [Memory.getElem_readBytes, State.byte]

/-- Settles O38: the block loaded goes to exactly the registers up to `X`. -/
theorem blockLoadCopiesMemoryToRegisters : Obligations.BlockLoadCopiesMemoryToRegisters := by
  intro x s inside
  refine ⟨_, execLoadRegs_of_inside inside, fun k loaded => ?_, fun k above => ?_, keeps_setRegs⟩
  · rw [getV_setRegs_readBytes x.isLt, if_pos (Nat.lt_succ_of_le loaded)]
  · rw [getV_setRegs_readBytes x.isLt, if_neg (Nat.not_lt_of_ge above)]

end Sys2Proof.Machine
end

section
/-! The display (spec/43_display.md R131 to R134) and the reset (spec/70_reset_and_hazards.md R190): which pixels a draw
toggles, when it collides, and what the host's two events leave. -/

namespace Sys2Proof.Machine

variable {s : State} {x y : Reg} {n : Nibble}

/-! Clear, acknowledgement, reset -/

/-- Settles O42: a cleared buffer has every pixel off. -/
theorem clsClearsEveryPixelAndSetsDirty : Obligations.ClsClearsEveryPixelAndSetsDirty :=
  fun _ => ⟨_, rfl, Display.pixel_clear, rfl, keeps_clear⟩

theorem keeps_presentAck : Keeps [.dirty] s (presentAck s) := by
  intro p hp; cases p <;> simp_all [Part.same, State.byte, presentAck]

/-- A reset machine differs from the reset state in the model's own record alone (assumption log 22). -/
theorem keeps_resetMachine :
    Keeps [.schedule, .outputs, .randCount] (State.resetWith s.font s.strictLowNibble) s.resetMachine := by
  intro p hp; cases p <;> simp_all [Part.same, State.byte, State.resetMachine]

/-- Settles O52: the acknowledgement is one update of `dirty`, and the reset is the reset state with the record going on. -/
theorem presentAckClearsDirtyAndResetResets : Obligations.PresentAckClearsDirtyAndResetResets :=
  fun _ => ⟨⟨_, rfl, rfl, keeps_presentAck⟩, ⟨_, rfl, keeps_resetMachine, rfl, rfl, rfl⟩⟩

/-! The sprite that a draw reads -/

/-- The `n` bytes at `mem[I]`, the rows of the sprite (R130). -/
def State.spriteRows (s : State) (n : Nibble) : List Byte := Memory.readBytes s.font s.mem s.I.toNat n.toNat

theorem State.length_spriteRows_le (s : State) (n : Nibble) : (s.spriteRows n).length ≤ 32 := by
  rw [State.spriteRows, Memory.length_readBytes]
  omega

/-- The bits of the rows read are the bits of memory (R132). -/
theorem spriteHits_spriteRows {px : Fin 64} {py : Fin 32} :
    SpriteHits (s.spriteRows n) (s.getV x).toNat (s.getV y).toNat px py ↔ SpriteBitOn s x y n px py := by
  simp [SpriteHits, SpriteBitOn, State.spriteRows, Memory.getElem_readBytes, State.byte]

/-- Only the index, the two coordinates and the memory decide where a sprite's bits fall. -/
theorem spriteBitOn_congr {t : State} (hI : t.I = s.I) (hx : t.getV x = s.getV x) (hy : t.getV y = s.getV y)
    (hmem : ∀ a, t.byte a = s.byte a) {px : Fin 64} {py : Fin 32} :
    SpriteBitOn t x y n px py ↔ SpriteBitOn s x y n px py := by
  simp only [SpriteBitOn, hI, hx, hy, hmem]

/-! What a draw leaves -/

theorem flagByte_eq_one_iff {f : Bool} : flagByte f = 1 ↔ f = true := by
  cases f <;> simp [flagByte]

theorem keepsRegs_withSprite {bs : List Byte} : KeepsRegs [VF] s (s.withSprite x y bs) := by
  intro r hr
  rw [State.getV_withSprite, if_neg (List.ne_of_not_mem_cons hr)]

theorem State.getV_withSprite_VF (s : State) (x y : Reg) (bs : List Byte) :
    (s.withSprite x y bs).getV VF =
      flagByte (Canvas.drawSprite ⟨s.disp, false⟩ (s.getV x).toNat (s.getV y).toNat bs).hit := by
  rw [State.getV_withSprite, if_pos rfl]

/-- A draw changes a pixel exactly when a 1-bit of the sprite falls on it (R132). -/
theorem pixel_withSprite_ne_iff (px : Fin 64) (py : Fin 32) :
    (s.withSprite x y (s.spriteRows n)).disp.pixel px py ≠ s.disp.pixel px py ↔ SpriteBitOn s x y n px py := by
  have drawn := Canvas.pixel_drawSprite ⟨s.disp, false⟩ (s.getV x).toNat (s.getV y).toNat _ (s.length_spriteRows_le n) px py
  rw [spriteHits_spriteRows] at drawn
  rw [State.withSprite_disp, Ne, Bool.eq_iff_iff, drawn]
  tauto

/-- A draw collides exactly when a 1-bit of the sprite falls on a pixel that was on (R132). -/
theorem getV_withSprite_VF_eq_one_iff :
    (s.withSprite x y (s.spriteRows n)).getV VF = 1 ↔ ∃ px py, SpriteBitOn s x y n px py ∧ s.disp.pixel px py = true := by
  rw [State.getV_withSprite_VF, flagByte_eq_one_iff, Canvas.hit_drawSprite _ _ _ _ (s.length_spriteRows_le n)]
  simp [spriteHits_spriteRows]

/-- The bounds of a draw, as the fault condition says them (R53, D30). -/
theorem faultCauseOf_drw_eq_none_iff :
    faultCauseOf (.drw x y n) s = none ↔ n = 0 ∨ s.I.toNat + n.toNat - 1 ≤ 0xFFF := by
  have noRow : n = 0 ↔ n.toNat = 0 := BitVec.toNat_inj.symm
  rw [faultCauseOf_drw_eq_none, noRow]
  omega

/-- Settles O43: the draw inside memory is the one update by the sprite's rows. -/
theorem drawTogglesThePixelsItsBitsFallOn : Obligations.DrawTogglesThePixelsItsBitsFallOn := by
  intro x y n s inside
  have noFault : faultCauseOf (.drw x y n) s = none := faultCauseOf_drw_eq_none_iff.2 inside
  refine ⟨s.withSprite x y (s.spriteRows n), execDrw_of_inside (faultCauseOf_drw_eq_none.1 noFault),
    pixel_withSprite_ne_iff, ?flag, getV_withSprite_VF_eq_one_iff, rfl, keepsRegs_withSprite, keeps_withSprite⟩
  case flag =>
    rw [State.getV_withSprite_VF]
    exact (flagByte_eq_zero_or_one _).symm

/-! Two draws of one sprite -/

/-- Toggling the same pixels a second time restores the display. -/
theorem Display.eq_of_toggled_twice {d e f : Display} {hits : Fin 64 → Fin 32 → Prop}
    (first : ∀ px py, e.pixel px py ≠ d.pixel px py ↔ hits px py)
    (second : ∀ px py, f.pixel px py ≠ e.pixel px py ↔ hits px py) : f = d := by
  refine Display.ext_pixel fun px py => ?_
  have sameChange : f.pixel px py ≠ e.pixel px py ↔ e.pixel px py ≠ d.pixel px py :=
    (second px py).trans (first px py).symm
  revert sameChange
  generalize f.pixel px py = c, e.pixel px py = b, d.pixel px py = a
  decide +revert

/-- A toggled pixel is on afterwards exactly when the toggle turned it on. -/
theorem Display.toggled_and_on_iff {d e : Display} {px : Fin 64} {py : Fin 32} :
    e.pixel px py ≠ d.pixel px py ∧ e.pixel px py = true ↔ d.pixel px py = false ∧ e.pixel px py = true := by
  generalize e.pixel px py = b, d.pixel px py = a
  decide +revert

/-- Settles O44: both draws toggle the same pixels, so the second undoes the first, and it collides on a toggled pixel that
the first left on. -/
theorem drawingTwiceRestoresTheDisplay : Obligations.DrawingTwiceRestoresTheDisplay := by
  intro x y n s t t' noFault ht hdisp hI hx hy hmem
  have inside := faultCauseOf_drw_eq_none_iff.1 noFault
  obtain ⟨_, ht₁, first, -⟩ := drawTogglesThePixelsItsBitsFallOn x y n s inside
  cases ht.symm.trans ht₁
  obtain ⟨u, hu, second, -, collides, -⟩ := drawTogglesThePixelsItsBitsFallOn x y n t' (hI ▸ inside)
  simp only [spriteBitOn_congr hI hx hy hmem, hdisp] at second collides
  refine ⟨u, hu, Display.eq_of_toggled_twice first second, ?_⟩
  simp only [collides, ← first, Display.toggled_and_on_iff]

end Sys2Proof.Machine
end

section
/-! Timers, keys and the wait for a key (spec/44_timers_and_keys.md R140 to R153): one event at a time first, then the runs
of ticks and the runs within a wait, by induction on their events. -/

namespace Sys2Proof.Machine

variable {s t u : State}

/-! Frames over a run: a frame is reflexive, transitive and may be widened -/

theorem Part.same_refl (p : Part) (s : State) : p.same s s := by
  cases p with
  | mem => exact fun _ => rfl
  | faultRecord => exact ⟨rfl, rfl, rfl⟩
  | _ => exact rfl

theorem Part.same_trans {p : Part} (first : p.same s t) (second : p.same t u) : p.same s u := by
  cases p with
  | mem => exact fun a => (second a).trans (first a)
  | faultRecord =>
    obtain ⟨cause, addr, op⟩ := first
    obtain ⟨cause', addr', op'⟩ := second
    exact ⟨cause'.trans cause, addr'.trans addr, op'.trans op⟩
  | _ => exact Eq.trans second first

theorem Keeps.refl (l : List Part) (s : State) : Keeps l s s := fun p _ => p.same_refl s

theorem Keeps.trans {l : List Part} (first : Keeps l s t) (second : Keeps l t u) : Keeps l s u :=
  fun p hp => Part.same_trans (first p hp) (second p hp)

theorem Keeps.mono {l l' : List Part} (frame : Keeps l s t) (wider : l ⊆ l') : Keeps l' s t :=
  fun p hp => frame p fun listed => hp (wider listed)

/-! Timer instructions -/

/-- Settles O45: each of the three moves is one update, of a register or of a counter. -/
theorem timerInstructionsMoveOneByte : Obligations.TimerInstructionsMoveOneByte :=
  fun _ _ => ⟨⟨_, rfl, State.getV_setV_same .., keepsRegs_setV, keeps_registers⟩, ⟨_, rfl, rfl, keeps_delay⟩,
    ⟨_, rfl, rfl, keeps_sound⟩⟩

/-! Ticks -/

theorem keeps_tick : Keeps [.DT, .ST, .outputs] s (tick s) := by
  intro p hp; cases p <;> simp_all [Part.same, State.byte, tick]

/-- The tick that takes the sound counter from 1 to 0 beeps (R145). -/
theorem outputs_tick_of_one (h : s.ST.toNat = 1) : (tick s).outputs = .beep :: s.outputs :=
  if_pos (BitVec.eq_of_toNat_eq h)

theorem outputs_tick_of_ne_one (h : s.ST.toNat ≠ 1) : (tick s).outputs = s.outputs :=
  if_neg fun one => h (congrArg BitVec.toNat one)

/-- Settles O46, by induction on the number of ticks: the first tick either beeps, and leaves a sound counter of 0 that beeps
no more, or leaves the beep to the ticks after it. -/
theorem ticksCountBothTimersDownToZero : Obligations.TicksCountBothTimersDownToZero := by
  intro n
  induction n with
  | zero =>
    intro s
    have noBeep : ¬ (1 ≤ s.ST.toNat ∧ s.ST.toNat ≤ 0) := by omega
    exact ⟨s, rfl, rfl, rfl, (if_neg noBeep).symm, .refl _ s⟩
  | succ n ih =>
    intro s
    obtain ⟨t, run, delay, sound, beeps, frame⟩ := ih (tick s)
    have delayTick : (tick s).DT.toNat = s.DT.toNat - 1 := toNat_countDown s.DT
    have soundTick : (tick s).ST.toNat = s.ST.toNat - 1 := toNat_countDown s.ST
    refine ⟨t, run, by omega, by omega, ?_, keeps_tick.trans frame⟩
    rw [beeps, soundTick]
    by_cases one : s.ST.toNat = 1
    · rw [if_neg (by omega), if_pos (by omega), outputs_tick_of_one one]
    · rw [outputs_tick_of_ne_one one]
      exact if_congr (by omega) rfl rfl

/-! Key skips -/

/-- Settles O47: the conditions of the two skips are the latch of the key and its negation. -/
theorem keySkipsFollowTheLatch : Obligations.KeySkipsFollowTheLatch :=
  fun _ _ _ key => ⟨skips_of_next (execSkp_of_key key) Iff.rfl, skips_of_next (execSknp_of_key key) (.of_eq (Bool.not_eq_true' _))⟩

/-- Settles O48: the listed fault condition is the same for both skips. -/
theorem keySkipsAboveFifteenRaiseFaultFive : Obligations.KeySkipsAboveFifteenRaiseFaultFive := by
  intro x s large
  have skpFaults : faultCauseOf (.skp x) s = some .keyIndex := if_pos large
  have sknpFaults : faultCauseOf (.sknp x) s = some .keyIndex := if_pos large
  exact ⟨exec_faultedAs skpFaults, exec_faultedAs sknpFaults⟩

/-! The wait for a key -/

/-- Settles O49: the three fields of the wait are the one update, which does not look at the latch. -/
theorem waitForKeyEntersTheWait : Obligations.WaitForKeyEntersTheWait :=
  fun _ _ => ⟨_, rfl, rfl, rfl, rfl, keeps_wait⟩

theorem keeps_setKey {k : KeyIndex} {pressed : Bool} : Keeps [.key] s (s.setKey k pressed) := by
  intro p hp; cases p <;> simp_all [Part.same, State.byte]

theorem State.getElem_setKey_key (s : State) (k j : KeyIndex) (pressed : Bool) :
    (s.setKey k pressed).key[j] = if j = k then pressed else s.key[j] := by
  simp [Vector.getElem_set, Fin.ext_iff, eq_comm]

theorem keeps_wake {k : KeyIndex} : Keeps [.V, .pc, .mode] s (s.wake k) := by
  intro p hp; cases p <;> simp_all [Part.same, State.byte]

/-- The wake writes the key index to the designated register (R152). -/
theorem State.getV_wake_waitReg (s : State) (k : KeyIndex) : (s.wake k).getV s.waitReg = BitVec.ofNat 8 k.val :=
  State.getV_setV_same ..

theorem keepsRegs_wake {k : KeyIndex} : KeepsRegs [s.waitReg] s (s.wake k) := keepsRegs_setV

theorem toNat_ofNat_keyIndex (k : KeyIndex) : (BitVec.ofNat 8 k.val).toNat = k.val :=
  Nat.mod_eq_of_lt (by omega)

/-- Settles O50, by whether the event wakes the CPU: both cases update the latch, and only a key-down in a wait also wakes. -/
theorem keyEventsUpdateTheLatchAndWakeTheWait : Obligations.KeyEventsUpdateTheLatchAndWakeTheWait := by
  intro k pressed s
  refine ⟨keyEvent k pressed s, rfl, ?_⟩
  by_cases wakes : pressed = true ∧ s.mode = .waitingForKey
  · rw [keyEvent_of_wake wakes]
    refine ⟨fun j => s.getElem_setKey_key k j pressed, fun _ => ⟨?written, rfl, rfl, ?others, ?frame⟩,
      fun no => absurd wakes no⟩
    case written => exact (congrArg BitVec.toNat (State.getV_wake_waitReg ..)).trans (toNat_ofNat_keyIndex k)
    case others => exact keepsRegs_wake (s := s.setKey k pressed)
    case frame => exact (keeps_setKey.mono (by simp)).trans (keeps_wake.mono (by simp))
  · rw [keyEvent_of_no_wake wakes]
    exact ⟨fun j => s.getElem_setKey_key k j pressed, fun yes => absurd yes wakes, fun _ => keeps_setKey⟩

/-- In a wait the CPU is stopped, a key-up event wakes nothing, and the other two events do not look at the mode. -/
theorem transition_of_waiting (waiting : s.mode = .waitingForKey) {e : Event}
    (he : e = .step ∨ e = .tick ∨ e = .presentAck ∨ ∃ k, e = .keyEvent k false) :
    ∃ t, transition e s = .next t ∧ Keeps [.DT, .ST, .key, .dirty, .outputs] s t := by
  obtain rfl | rfl | rfl | ⟨k, rfl⟩ := he
  · exact ⟨s, cpuStep_of_stopped (by simp [waiting]), .refl _ s⟩
  · exact ⟨_, rfl, keeps_tick.mono (by simp)⟩
  · exact ⟨_, rfl, keeps_presentAck.mono (by simp)⟩
  · have noWake : keyEvent k false s = s.setKey k false := keyEvent_of_no_wake (by simp)
    exact ⟨s.setKey k false, congrArg Host.Outcome.next noWake, keeps_setKey.mono (by simp)⟩

/-- Settles O51, by induction on the events: each keeps the mode, which its frame does not list, so the next one also finds
the machine waiting. -/
theorem theWaitKeepsEverythingUntilAKeyGoesDown : Obligations.TheWaitKeepsEverythingUntilAKeyGoesDown := by
  intro es
  induction es with
  | nil => exact fun s waiting _ => ⟨s, rfl, waiting, .refl _ s⟩
  | cons e es ih =>
    intro s waiting allowed
    obtain ⟨he, hes⟩ := List.forall_mem_cons.1 allowed
    obtain ⟨t, ht, frame⟩ := transition_of_waiting waiting he
    have sameMode : t.mode = s.mode := frame .mode (by simp)
    obtain ⟨u, hu, stillWaiting, frame'⟩ := ih t (sameMode.trans waiting) hes
    exact ⟨u, by rw [runEvents, ht]; exact hu, stillWaiting, frame.trans frame'⟩

end Sys2Proof.Machine
end

section
/-! Exceptions (spec/60_exceptions.md R161 to R168): an instruction faults under its listed condition alone, and the fault
state lasts until a reset. -/

namespace Sys2Proof.Machine

variable {s t : State} {e : Event}

/-! Which instructions fault -/

/-- `FX0A` alone writes the mode without a fault (R151). -/
theorem mode_mem_partsWritten {i : Instr} : .mode ∈ partsWritten i ↔ ∃ x, i = .ldVxK x := by
  cases i <;> simp [partsWritten]

/-- Without its listed condition an instruction does not bring the machine to `Faulted`: it begins the wait, or it leaves
the mode alone (R161, R162). -/
theorem exec_mode_ne_faulted {i : Instr} (ht : exec i s = .next t) (noFault : faultCauseOf i s = none)
    (running : s.mode = .normal) : t.mode ≠ .faulted := by
  by_cases waits : .mode ∈ partsWritten i
  · obtain ⟨x, rfl⟩ := mode_mem_partsWritten.1 waits
    obtain ⟨u, hu, waiting, -⟩ := waitForKeyEntersTheWait x s
    cases ht.symm.trans hu
    simp [waiting]
  · have sameMode : t.mode = s.mode := eachInstructionChangesOnlyItsParts i s t ht noFault .mode waits
    simp [sameMode, running]

/-- Settles O57, by cases on the listed condition: the fault state is the one that the instruction answers under it. -/
theorem faultsAreExactlyTheListedOnesAndPrecise : Obligations.FaultsAreExactlyTheListedOnesAndPrecise := by
  intro i s t ht
  refine ⟨fun cause listed => ?_, exec_mode_ne_faulted ht⟩
  obtain ⟨u, hu, -, faulted⟩ := exec_faultedAs listed
  cases ht.symm.trans hu
  exact faulted

/-! The fault state -/

theorem load_of_closed {bytes : List Byte} (closed : s.loadAllowed = false) : load bytes s = .refused .loadOutOfOrder :=
  if_pos closed

/-- In `Faulted` the CPU is stopped, a key-down wakes nothing and a `Load` is refused; the other events but a reset do not
look at the mode (R161, D28). -/
theorem keeps_transition_of_faulted (inv : Inv s) (faulted : s.mode = .faulted) (noReset : e ≠ .reset)
    (ht : transition e s = .next t) : Keeps [.DT, .ST, .key, .dirty, .outputs] s t := by
  have stopped : s.mode ≠ .normal := by simp [faulted]
  cases e with
  | step => exact keeps_of_next ht (cpuStep_of_stopped stopped) (.refl _ s)
  | tick => exact keeps_of_next ht rfl (keeps_tick.mono (by simp))
  | keyEvent k pressed =>
    have noWake : keyEvent k pressed s = s.setKey k pressed := keyEvent_of_no_wake (by simp [faulted])
    exact keeps_of_next ht (congrArg Host.Outcome.next noWake) (keeps_setKey.mono (by simp))
  | presentAck => exact keeps_of_next ht rfl (keeps_presentAck.mono (by simp))
  | load bytes => exact nomatch ht.symm.trans (load_of_closed (inv.loadClosed stopped))
  | reset => exact absurd rfl noReset
  | quit => exact nomatch ht

/-- A run that begins with `e` performs it and goes on from the state that it answers (R47, R48). -/
theorem runEvents_cons_eq_next {es : List Event} :
    runEvents (e :: es) s = .next t ↔ ∃ u, transition e s = .next u ∧ runEvents es u = .next t := by
  rw [runEvents]
  cases transition e s <;> simp

/-- Settles O58, by induction on the events: each keeps the mode, which its frame does not list, and the invariant, so the
next one also finds the machine faulted and closed to a `Load`. -/
theorem faultedIsAbsorbingUntilReset : Obligations.FaultedIsAbsorbingUntilReset := by
  intro es
  induction es with
  | nil =>
    intro s t _ faulted _ run
    cases run
    exact ⟨faulted, .refl _ s⟩
  | cons e es ih =>
    intro s t inv faulted noReset run
    obtain ⟨first, later⟩ := List.ne_and_not_mem_of_not_mem_cons noReset
    obtain ⟨u, hu, rest⟩ := runEvents_cons_eq_next.1 run
    have frame := keeps_transition_of_faulted inv faulted first.symm hu
    have sameMode : u.mode = s.mode := frame .mode (by simp)
    obtain ⟨stillFaulted, frame'⟩ := ih u t (inv.transition hu) (sameMode.trans faulted) later rest
    exact ⟨stillFaulted, frame.trans frame'⟩

end Sys2Proof.Machine
end

section
/-! Reset, boot and the parked machine (spec/70_reset_and_hazards.md R190 to R202): a `Load` comes once and fits, or it is
refused, and a jump to itself leads back to the state that it started in. -/

namespace Sys2Proof.Machine

variable {s : State} {bytes : List Byte}

/-! The boot order -/

theorem imageFits_iff : imageFits bytes = true ↔ bytes.length ≤ 3584 := decide_eq_true_iff

/-- A `Load` in its place in the boot order, of an image that fits, stores the image and closes the order (R191, R192). -/
theorem load_of_fitting (allowed : s.loadAllowed = true) (fits : bytes.length ≤ 3584) :
    load bytes s = .next { s with mem := Memory.writeBytes s.font s.mem 0x200 bytes, loadAllowed := false } := by
  simp [load, allowed, imageFits_iff.2 fits, Config.loadBase]

theorem load_of_tooLong (allowed : s.loadAllowed = true) (tooLong : bytes.length > 3584) :
    load bytes s = .refused .imageTooLong := by
  have unfit : imageFits bytes = false := Bool.eq_false_iff.2 (imageFits_iff.not.2 (Nat.not_le_of_lt tooLong))
  simp [load, allowed, unfit]

/-- Besides memory, a `Load` changes only the model's own record of the boot order (assumption log 16). -/
theorem keeps_loaded {m : Memory} : Keeps [.mem, .loadAllowed] s { s with mem := m, loadAllowed := false } := by
  intro p hp
  cases p <;> simp_all [Part.same]

/-- Settles O53, by cases on the two checks: an image that passes both ends at 0x1000 or below, so it reads back byte by
byte. -/
theorem loadCopiesTheImageOnceBeforeTheFirstStep : Obligations.LoadCopiesTheImageOnceBeforeTheFirstStep := by
  intro bytes s hwf
  refine ⟨fun allowed fits => ?loaded, load_of_tooLong, load_of_closed⟩
  have inside : 0x200 + bytes.length ≤ 0x1000 := Nat.add_le_add_left fits 0x200
  exact ⟨_, load_of_fitting allowed fits, Memory.read_writeBytes_inside hwf inside, keepsBytesOutside_writeBytes rfl, rfl,
    keeps_loaded⟩

/-! The parked machine -/

/-- After the boot order is closed, the start of an instruction records nothing. -/
theorem State.begun_of_closed (closed : s.loadAllowed = false) : s.begun = s := by
  rw [State.begun, ← closed]

/-- A jump back to the address of its own fetch undoes the advance, and changes nothing else. -/
theorem State.jump_advance_self (s : State) : s.advance.jump s.pc = s := rfl

/-- Settles O59: the step fetches the jump, which undoes the advance of its fetch. -/
theorem aParkedMachineStaysParked : Obligations.AParkedMachineStaysParked := by
  rintro s ⟨running, w, nnn, fetched, known, toItself⟩ unscheduled closed
  obtain ⟨inside, rfl⟩ := Memory.fetch_eq_some.1 fetched
  calc step s
    _ = execWord _ s.begun.advance := step_of_fetched unscheduled running inside
    _ = exec (.jp nnn) s.begun.advance := execWord_of_known known
    _ = .next (s.begun.advance.jump (zextAddr nnn)) := rfl
    _ = .next s := by rw [toItself, State.begun_of_closed closed, State.jump_advance_self]

end Sys2Proof.Machine
end
